-- ==== Sys2Proof/Word.lean ====
section
/-!
DEFINITION. The word types of x86_descriptor_encoder.

Bits are numbered from the least significant (00_scope.md R10) and every value is unsigned (R69).
-/

namespace Sys2Proof

/-- One byte of memory: the smallest addressable unit (20_memory.md R40). -/
abbrev Byte := BitVec 8

/-- A 64-bit linear address as an operand or a register holds it (20_memory.md R40). Address arithmetic is done on
`Nat` after `toNat` (R48). -/
abbrev Addr := BitVec 64

end Sys2Proof
end

