-- ==== Sys2Proof/Syntax.lean ====
section
/-!
DEFINITION. The command record, the data it carries, and the eleven commands.

The widths are those of 30_encoding.md R60, R61, R62 and R65; the constructors of `Instr` are the rows of
spec/opcode_table.json.
-/

namespace Sys2Proof

/-- A field record: one descriptor's fields in the input widths the block accepts (30_encoding.md R61; the short
names are those of 00_scope.md R15). -/
@[ext] structure FieldRecord where
  /-- segment base; legal only below 2^32 -/
  base  : BitVec 64
  /-- raw limit field in the units `g` selects; legal only up to 0xFFFFF -/
  limit : BitVec 32
  /-- granularity-scale -/
  g     : BitVec 1
  /-- default-operand-size -/
  db    : BitVec 1
  /-- long-mode -/
  l     : BitVec 1
  /-- available-for-system-use -/
  avl   : BitVec 1
  /-- present -/
  p     : BitVec 1
  /-- descriptor-privilege-level -/
  dpl   : BitVec 2
  /-- descriptor-type -/
  s     : BitVec 1
  /-- executable -/
  e     : BitVec 1
  /-- direction/conforming -/
  dc    : BitVec 1
  /-- readable/writable -/
  rw    : BitVec 1
  /-- accessed -/
  a     : BitVec 1
  /-- the extended/reserved field; legal only as zero -/
  rsv   : BitVec 32
deriving DecidableEq, Repr

/-- A segment-parameter record: the semantic parameters ENCSEG takes (30_encoding.md R62). -/
@[ext] structure SegParams where
  base  : BitVec 64
  limit : BitVec 32
  g     : BitVec 1
  db    : BitVec 1
  l     : BitVec 1
  dpl   : BitVec 2
  /-- 0 = data, 1 = code -/
  kind  : BitVec 1
  p     : BitVec 1
deriving DecidableEq, Repr

/-- A DescriptorRegisterValue: the (limit, base) pair that locates a table (10_state.md R22, 30_encoding.md R65). -/
@[ext] structure RegValue where
  /-- byte count minus one -/
  limit : BitVec 16
  /-- linear address of the table's first byte -/
  base  : BitVec 64
deriving DecidableEq, Repr

/-- A command as the core issues it: one fixed-format record (30_encoding.md R60). A field the command does not use
is ignored. -/
@[ext] structure CommandRecord where
  op  : BitVec 8
  a0  : Addr
  a1  : Addr
  n   : BitVec 32
  cpl : BitVec 2
  f   : FieldRecord
  sp  : SegParams
deriving DecidableEq, Repr

/-- The eleven commands (30_encoding.md R66), each with the operands its rule names. -/
inductive Instr where
  /-- ENCODE a0, f (40_entry_codec.md R84) -/
  | encode (a0 : Addr) (f : FieldRecord)
  /-- ENCSEG a0, sp (40_entry_codec.md R85) -/
  | encseg (a0 : Addr) (sp : SegParams)
  /-- DECODE a0 (40_entry_codec.md R86) -/
  | decode (a0 : Addr)
  /-- CHKENT a0 (40_entry_codec.md R87) -/
  | chkent (a0 : Addr)
  /-- TBUILD a0, a1, n (41_descriptor_table.md R102) -/
  | tbuild (a0 : Addr) (a1 : Addr) (n : BitVec 32)
  /-- TCHECK a0, n (41_descriptor_table.md R103) -/
  | tcheck (a0 : Addr) (n : BitVec 32)
  /-- TVIEW a0, n (41_descriptor_table.md R104) -/
  | tview (a0 : Addr) (n : BitVec 32)
  /-- INSTALL a0 @cpl (42_gdtr_access.md R122) -/
  | install (a0 : Addr) (cpl : BitVec 2)
  /-- CAPTURE a0 @cpl (42_gdtr_access.md R123) -/
  | capture (a0 : Addr) (cpl : BitVec 2)
  /-- CAPLDT a0 @cpl (42_gdtr_access.md R124) -/
  | capldt (a0 : Addr) (cpl : BitVec 2)
  /-- LOAD a0, n @cpl (42_gdtr_access.md R125) -/
  | load (a0 : Addr) (n : BitVec 32) (cpl : BitVec 2)
deriving DecidableEq, Repr

/-- The field record whose every field is zero: what an unused `f` holds (30_encoding.md R71), and the null
descriptor's fields (40_entry_codec.md R84). -/
def FieldRecord.zero : FieldRecord :=
  { base := 0, limit := 0, g := 0, db := 0, l := 0, avl := 0, p := 0, dpl := 0, s := 0, e := 0, dc := 0, rw := 0,
    a := 0, rsv := 0 }

/-- The segment-parameter record whose every field is zero: what an unused `sp` holds (30_encoding.md R71). -/
def SegParams.zero : SegParams :=
  { base := 0, limit := 0, g := 0, db := 0, l := 0, dpl := 0, kind := 0, p := 0 }

end Sys2Proof
end

