-- ==== Sys2Proof/WellFormed.lean ====
section
/-!
DEFINITION. What can be ill-formed.

Every `Instr` is well-formed: its operand fields have exactly the record's widths, and "within a legal command no
operand value is reserved" (30_encoding.md R68). What can be ill-formed is a command record (a reserved opcode, or an
unused field that is not zero, which the assembler never writes, R71) and a number in assembler text (too wide for
its field).
-/

namespace Sys2Proof

/-- The opcode is one of the eleven (30_encoding.md R66, R68). -/
def CommandRecord.opAssigned (r : CommandRecord) : Bool :=
  decide (1 ≤ r.op.toNat) && decide (r.op.toNat ≤ 11)

/-- The commands that use `a1` (30_encoding.md R60): TBUILD. -/
def usesA1 (op : BitVec 8) : Bool := op == 0x05#8
/-- The commands that use `n` (30_encoding.md R60): TBUILD, TCHECK, TVIEW, LOAD. -/
def usesN (op : BitVec 8) : Bool := op == 0x05#8 || op == 0x06#8 || op == 0x07#8 || op == 0x0B#8
/-- The command that uses `f` (30_encoding.md R60): ENCODE. -/
def usesF (op : BitVec 8) : Bool := op == 0x01#8
/-- The command that uses `sp` (30_encoding.md R60): ENCSEG. -/
def usesSp (op : BitVec 8) : Bool := op == 0x02#8
/-- The commands whose rule names `cpl` (30_encoding.md R60): INSTALL, CAPTURE, CAPLDT, LOAD. -/
def usesCpl (op : BitVec 8) : Bool := op == 0x08#8 || op == 0x09#8 || op == 0x0A#8 || op == 0x0B#8

/-- A record as the assembler writes it: an assigned opcode, and zero in every unused field (30_encoding.md R71).
`cpl` is no part of this check: the core supplies it with every command (10_state.md R27). -/
def CommandRecord.wellFormed (r : CommandRecord) : Bool :=
  r.opAssigned && (usesA1 r.op || r.a1 == 0) && (usesN r.op || r.n == 0) && (usesF r.op || r.f == FieldRecord.zero) &&
    (usesSp r.op || r.sp == SegParams.zero)

/-- A number of assembler text fits a field of `w` bits (30_encoding.md R60, R69: no operand is truncated). -/
def numberFits (w v : Nat) : Bool := decide (v < 2 ^ w)

end Sys2Proof
end

