-- ==== Sys2Proof/Decode.lean ====
section
/-!
DEFINITION. From bytes to a command record, from a record to an instruction, and back.

The opcode byte alone selects the command (30_encoding.md R66); a reserved one is rejected by name (R68). The spec gives
the record's fields and widths and not their places: the layout below is the model's (DESIGN CHOICE, log 7).
-/

namespace Sys2Proof

/-! ### Byte order (20_memory.md R41) -/

/-- The little-endian value of a list of bytes, the first byte the least significant (20_memory.md R42). -/
def leValue : List Byte → Nat
  | [] => 0
  | b :: bs => b.toNat + 256 * leValue bs

/-- The `n` low bytes of a value, least significant first (20_memory.md R42). -/
def leBytes : Nat → Nat → List Byte
  | 0, _ => []
  | n + 1, v => BitVec.ofNat 8 v :: leBytes n (v / 256)

/-! ### Opcodes (30_encoding.md R66) -/

def opEncode : BitVec 8 := 0x01#8
def opEncseg : BitVec 8 := 0x02#8
def opDecode : BitVec 8 := 0x03#8
def opChkent : BitVec 8 := 0x04#8
def opTbuild : BitVec 8 := 0x05#8
def opTcheck : BitVec 8 := 0x06#8
def opTview : BitVec 8 := 0x07#8
def opInstall : BitVec 8 := 0x08#8
def opCapture : BitVec 8 := 0x09#8
def opCapldt : BitVec 8 := 0x0A#8
def opLoad : BitVec 8 := 0x0B#8

/-! ### The record as bytes (log 7)

The fields stand in the order of 30_encoding.md R60, R61 and R62 from byte 0 up, each number on a byte boundary and the
one- and two-bit fields of a record together, little-endian: `op` byte 0, `a0` bytes 1..8, `a1` 9..16, `n` 17..20, `cpl`
bits 1..0 of byte 21, `f` bytes 22..39 (base 8, limit 4, flags 2, rsv 4), `sp` bytes 40..52 (base 8, limit 4, flags 1). Six
bits of byte 21, four of the flags of `f` and one of the flags of `sp` belong to no field. -/

/-- The one- and two-bit fields of a field record, in the order of 30_encoding.md R61 from bit 0 up. -/
def fieldFlags (f : FieldRecord) : BitVec 16 :=
  (0#4) ++ f.a ++ f.rw ++ f.dc ++ f.e ++ f.s ++ f.dpl ++ f.p ++ f.avl ++ f.l ++ f.db ++ f.g

/-- The one- and two-bit fields of a segment-parameter record, in the order of 30_encoding.md R62 from bit 0 up. -/
def segFlags (q : SegParams) : BitVec 8 := (0#1) ++ q.p ++ q.kind ++ q.dpl ++ q.l ++ q.db ++ q.g

/-- The value of `len` bytes from byte `off` up. -/
def bytesAt (bs : List Byte) (off len : Nat) : Nat := leValue ((bs.drop off).take len)

/-- The field record in 18 bytes. -/
def fieldOfBytes (bs : List Byte) : FieldRecord :=
  let flags := BitVec.ofNat 16 (bytesAt bs 12 2)
  { base := BitVec.ofNat 64 (bytesAt bs 0 8), limit := BitVec.ofNat 32 (bytesAt bs 8 4)
    g := flags.extractLsb' 0 1, db := flags.extractLsb' 1 1, l := flags.extractLsb' 2 1, avl := flags.extractLsb' 3 1
    p := flags.extractLsb' 4 1, dpl := flags.extractLsb' 5 2, s := flags.extractLsb' 7 1, e := flags.extractLsb' 8 1
    dc := flags.extractLsb' 9 1, rw := flags.extractLsb' 10 1, a := flags.extractLsb' 11 1
    rsv := BitVec.ofNat 32 (bytesAt bs 14 4) }

/-- The segment-parameter record in 13 bytes. -/
def segOfBytes (bs : List Byte) : SegParams :=
  let flags := BitVec.ofNat 8 (bytesAt bs 12 1)
  { base := BitVec.ofNat 64 (bytesAt bs 0 8), limit := BitVec.ofNat 32 (bytesAt bs 8 4)
    g := flags.extractLsb' 0 1, db := flags.extractLsb' 1 1, l := flags.extractLsb' 2 1, dpl := flags.extractLsb' 3 2
    kind := flags.extractLsb' 5 1, p := flags.extractLsb' 6 1 }

/-- The length of every command in bytes: it is fixed (30_encoding.md R70). -/
def recordLen : Nat := 53

/-- The command record in the first 53 bytes. -/
def recordFromBytes (bs : List Byte) : CommandRecord :=
  { op := BitVec.ofNat 8 (bytesAt bs 0 1), a0 := BitVec.ofNat 64 (bytesAt bs 1 8)
    a1 := BitVec.ofNat 64 (bytesAt bs 9 8), n := BitVec.ofNat 32 (bytesAt bs 17 4)
    cpl := BitVec.ofNat 2 (bytesAt bs 21 1), f := fieldOfBytes (bs.drop 22), sp := segOfBytes (bs.drop 40) }

/-- The bytes of a field record. -/
def fieldBytes (f : FieldRecord) : List Byte :=
  leBytes 8 f.base.toNat ++ leBytes 4 f.limit.toNat ++ leBytes 2 (fieldFlags f).toNat ++ leBytes 4 f.rsv.toNat

/-- The bytes of a segment-parameter record. -/
def segBytes (q : SegParams) : List Byte :=
  leBytes 8 q.base.toNat ++ leBytes 4 q.limit.toNat ++ leBytes 1 (segFlags q).toNat

/-- The bytes of a command record. -/
def recordBytes (r : CommandRecord) : List Byte :=
  leBytes 1 r.op.toNat ++ leBytes 8 r.a0.toNat ++ leBytes 8 r.a1.toNat ++ leBytes 4 r.n.toNat ++ leBytes 1 r.cpl.toNat ++
    fieldBytes r.f ++ segBytes r.sp

/-! ### Decoding -/

/-- Why no command is read. -/
inductive DecodeError where
  /-- the opcode is 0x00 or 0x0C..0xFF (30_encoding.md R68); the step takes the IllegalCommand outcome -/
  | reservedOpcode (op : BitVec 8)
  /-- fewer than 53 bytes are there: no whole record; a step never meets this, its queue holds whole records -/
  | truncatedRecord (have_ : Nat)
deriving DecidableEq, Repr

/-- The command a record stands for (30_encoding.md R66): only the fields its command uses are read (R60). -/
def decodeRecord (r : CommandRecord) : Except DecodeError Instr :=
  if r.op = opEncode then .ok (.encode r.a0 r.f)
  else if r.op = opEncseg then .ok (.encseg r.a0 r.sp)
  else if r.op = opDecode then .ok (.decode r.a0)
  else if r.op = opChkent then .ok (.chkent r.a0)
  else if r.op = opTbuild then .ok (.tbuild r.a0 r.a1 r.n)
  else if r.op = opTcheck then .ok (.tcheck r.a0 r.n)
  else if r.op = opTview then .ok (.tview r.a0 r.n)
  else if r.op = opInstall then .ok (.install r.a0 r.cpl)
  else if r.op = opCapture then .ok (.capture r.a0 r.cpl)
  else if r.op = opCapldt then .ok (.capldt r.a0 r.cpl)
  else if r.op = opLoad then .ok (.load r.a0 r.n r.cpl)
  else .error (.reservedOpcode r.op)

/-- The record in the first 53 of some bytes, and the bytes after it. -/
def recordOfBytes (bs : List Byte) : Except DecodeError (CommandRecord × List Byte) :=
  if recordLen ≤ bs.length then
    .ok (recordFromBytes bs, bs.drop recordLen)
  else .error (.truncatedRecord bs.length)

/-- The decoder, total on any bytes: the instruction at their front and the bytes after it, or a rejection by
name. -/
def decodeBytes (bs : List Byte) : Except DecodeError (Instr × List Byte) :=
  match recordOfBytes bs with
  | .error e => .error e
  | .ok (r, rest) =>
    match decodeRecord r with
    | .error e => .error e
    | .ok i => .ok (i, rest)

/-- The bytes of a table word: its `nbits` low bits, every bit above them zero, as 53 bytes. -/
def tableWordBytes (nbits w : Nat) : List Byte := leBytes recordLen (w % 2 ^ nbits)

/-- The record of a table word. -/
def recordOfTableWord (nbits w : Nat) : CommandRecord :=
  recordFromBytes (tableWordBytes nbits w)

/-- The instruction the decoder reads from a word numbered as spec/opcode_table.json numbers its bits. -/
def decodeTableWord (nbits w : Nat) : Option Instr :=
  match decodeBytes (tableWordBytes nbits w) with
  | .ok (i, _) => some i
  | .error _ => none

/-! ### Encoding -/

/-- The opcode of a command (30_encoding.md R66). -/
def opcodeOf : Instr → BitVec 8
  | .encode _ _ => opEncode
  | .encseg _ _ => opEncseg
  | .decode _ => opDecode
  | .chkent _ => opChkent
  | .tbuild _ _ _ => opTbuild
  | .tcheck _ _ => opTcheck
  | .tview _ _ => opTview
  | .install _ _ => opInstall
  | .capture _ _ => opCapture
  | .capldt _ _ => opCapldt
  | .load _ _ _ => opLoad

/-- A record with an opcode, an address, and zero in every other field. -/
def plainRecord (op : BitVec 8) (a0 : Addr) : CommandRecord :=
  { op := op, a0 := a0, a1 := 0, n := 0, cpl := 0, f := FieldRecord.zero, sp := SegParams.zero }

/-- The record of a command, unused fields written as zero (30_encoding.md R60, R71). -/
def encode : Instr → CommandRecord
  | .encode a0 f => { plainRecord opEncode a0 with f := f }
  | .encseg a0 sp => { plainRecord opEncseg a0 with sp := sp }
  | .decode a0 => plainRecord opDecode a0
  | .chkent a0 => plainRecord opChkent a0
  | .tbuild a0 a1 n => { plainRecord opTbuild a0 with a1 := a1, n := n }
  | .tcheck a0 n => { plainRecord opTcheck a0 with n := n }
  | .tview a0 n => { plainRecord opTview a0 with n := n }
  | .install a0 cpl => { plainRecord opInstall a0 with cpl := cpl }
  | .capture a0 cpl => { plainRecord opCapture a0 with cpl := cpl }
  | .capldt a0 cpl => { plainRecord opCapldt a0 with cpl := cpl }
  | .load a0 n cpl => { plainRecord opLoad a0 with n := n, cpl := cpl }

/-- The bytes of a command. -/
def encodeBytes (i : Instr) : List Byte := recordBytes (encode i)

end Sys2Proof
end

