-- ==== Sys2Proof/Config.lean ====
section
/-!
DEFINITION. The implementation parameters of 00_scope.md R7, the fixed constants of R8, and the free value.

A model takes each parameter as an argument (R7): they are data of the type `Params`, held in the field
`State.params`, so that a statement about every state quantifies over every value (log 1).
-/

namespace Sys2Proof.Config

/-- `ENTRY_STRIDE`, one of 8 and 12 bytes (00_scope.md R7, 90_conflicts.md C1). -/
inductive Stride where
  | eight
  | twelve
deriving DecidableEq, Repr

/-- The entry size in bytes. -/
def Stride.bytes : Stride → Nat
  | .eight => 8
  | .twelve => 12

/-- A run of `size` byte addresses from `base`. -/
structure Region where
  base : Nat
  size : Nat
deriving DecidableEq, Repr

/-- The parameters of 00_scope.md R7. -/
structure Params where
  /-- `ENTRY_STRIDE` -/
  stride : Stride
  /-- `GDTR_RESET`: what firmware installed, a draw -/
  gdtrReset : RegValue
  /-- `LDTR_RESET`: a draw -/
  ldtrReset : RegValue
  /-- `CAPTURE_PRIVILEGED` -/
  capturePrivileged : Bool
  /-- `CHECK_CANONICAL_BASE` -/
  checkCanonicalBase : Bool
  /-- `VAW` less 32, so that the type holds exactly the range 32..64 -/
  vawOver32 : Fin 33
  /-- `MemAdmit`: the byte addresses of these regions are admitted. Every predicate on 64-bit addresses is such a
  list (log 6). -/
  memAdmit : List Region
deriving DecidableEq, Repr

/-- `VAW` (00_scope.md R7). -/
def Params.vaw (p : Params) : Nat := 32 + p.vawOver32.val

/-- `ENTRY_CLASSIC_BYTES` (00_scope.md R8). -/
def entryClassicBytes : Nat := 8
/-- `ENTRY_RECORD_BYTES` (00_scope.md R8). -/
def entryRecordBytes : Nat := 12
/-- `REG_IMAGE_BYTES` (00_scope.md R8). -/
def regImageBytes : Nat := 10
/-- `TABLE_MAX_BYTES` (00_scope.md R8). -/
def tableMaxBytes : Nat := 65536
/-- `LIMIT_FIELD_MAX`: the largest 20-bit limit (00_scope.md R8). -/
def limitFieldMax : Nat := 0xFFFFF
/-- `BASE_FIELD_MAX`: the largest 32-bit entry base (00_scope.md R8). -/
def baseFieldMax : Nat := 0xFFFFFFFF
/-- `PAGE` (00_scope.md R8). -/
def pageBytes : Nat := 4096
/-- The first byte address past the address space (20_memory.md R40). -/
def addrSpaceSize : Nat := 2 ^ 64

/-- `MAX_ENTRIES` (00_scope.md R9). -/
def Params.maxEntries (p : Params) : Nat := tableMaxBytes / p.stride.bytes

/-- The parameter values `State.reset` takes. DESIGN CHOICE (log 2, log 3), unsafe: the spec leaves them open.
The stride, the two flags and `VAW` are the spec's defaults; `GDTR_RESET` is the example draw of program P2 and
`LDTR_RESET` that of vector G10 (95_test_vectors.md); every byte of the address space is admitted. No statement
about the machine rests on them: each is about every `Params`. -/
def namedParams : Params :=
  { stride := .twelve
    gdtrReset := { limit := 0x007F, base := 0x7E000000 }
    ldtrReset := { limit := 0, base := 0 }
    capturePrivileged := false
    checkCanonicalBase := false
    vawOver32 := 16
    memAdmit := [{ base := 0, size := 2 ^ 64 }] }

/-- FREE VALUE (log 5): the byte at an address of memory that nothing in the model has written. It is unknown
(70_reset_and_hazards.md R160, 93_implementation_defined.md U3), the same at each read (20_memory.md R46). It has no
body: nothing can be proved of its value. -/
opaque unwrittenByte : Nat → Byte

end Sys2Proof.Config
end

