-- ==== Sys2Proof/Machine/State.lean ====
section
/-!
DEFINITION. The state of the block, the reasons a step can stop, and reset.

Every field of 10_state.md's table is here, with the memory the block shares (20_memory.md R40), the parameters
(00_scope.md R7, log 1) and the queue of issued commands (log 8).
-/

namespace Sys2Proof.Machine

open Sys2Proof.Config

/-- The modelled segmentation state (10_state.md R24). -/
inductive Mode where
  | preExisting
  | flatInstalled
deriving DecidableEq, Repr

/-- One record of FAULT_LOG (10_state.md R26, 60_exceptions.md R143). The spec gives `vector` and `errcode` no width
(log 11). -/
structure FaultRecord where
  op      : BitVec 8
  cpl     : BitVec 2
  vector  : Nat
  errcode : Nat
deriving DecidableEq, Repr

/-- Memory: the bytes the model has written, as (address, byte) pairs, addresses strictly rising (log 6). An address
with no pair holds no value here; reading it gives the free value `Config.unwrittenByte` (log 5). -/
abbrev Memory := List Host.Cell

/-- The state of the block. -/
structure State where
  /-- the implementation parameters (00_scope.md R7); no step writes them (log 1) -/
  params : Params
  /-- `GDTR` (10_state.md R22) -/
  gdtr : RegValue
  /-- `LDTR` (10_state.md R23) -/
  ldtr : RegValue
  /-- `MODE` (10_state.md R24) -/
  mode : Mode
  /-- `RSP_STATUS`; `none` is the spec's "no value" (10_state.md R25, log 4) -/
  rspStatus : Option (BitVec 8)
  /-- `RSP_ENTRY` (10_state.md R25) -/
  rspEntry : Option (BitVec 96)
  /-- `RSP_FIELDS` (10_state.md R25) -/
  rspFields : Option FieldRecord
  /-- `RSP_REG` (10_state.md R25) -/
  rspReg : Option (BitVec 80)
  /-- `FAULT_LOG`, oldest first (10_state.md R26) -/
  faultLog : List FaultRecord
  /-- the memory the block reads and writes (20_memory.md R40) -/
  mem : Memory
  /-- the MODEL's own field: the commands the core has issued and the block has not taken, in program order
  (10_state.md R21, log 8) -/
  pending : List CommandRecord
deriving DecidableEq, Repr

/-- The reasons the machine stops. -/
inductive Fault where
  /-- STUCK (20_memory.md R42): a command reads or writes a byte that `MemAdmit` does not admit, or one above
  2^64-1, so it has no step. Raised by every command that touches memory. Safe: the model stops where hardware may
  go on (log 9). -/
  | unadmittedAccess
deriving DecidableEq, Repr

/-- The reasons a requester's read of a response register faults. It is no reason the machine stops: the requester reads
between commands (10_state.md R25), and no command and no step reads a response register. -/
inductive ReadFault where
  /-- Nothing has written the register: "a model must fault a read of a response register nothing has written"
  (10_state.md R25; 92_eei_decisions.md D22, 93_implementation_defined.md U7). Raised by the four read operations.
  Safe (log 4). -/
  | responseNotWritten
deriving DecidableEq, Repr

/-- The reasons an instruction is refused. -/
inductive Refusal where
  /-- The instruction has no meaning in the model; raised by no arm of `exec`. Safe. -/
  | notModelled (mnemonic : String)
deriving DecidableEq, Repr

/-- What a step or a command answers. -/
abbrev Result := Host.Outcome State Fault Refusal

/-! ### One update per field -/

def State.setGdtr (s : State) (v : RegValue) : State := { s with gdtr := v }
def State.setMode (s : State) (m : Mode) : State := { s with mode := m }
def State.setStatus (s : State) (x : BitVec 8) : State := { s with rspStatus := some x }
def State.setEntry (s : State) (x : BitVec 96) : State := { s with rspEntry := some x }
def State.setFields (s : State) (f : FieldRecord) : State := { s with rspFields := some f }
def State.setReg (s : State) (x : BitVec 80) : State := { s with rspReg := some x }
def State.logFault (s : State) (r : FaultRecord) : State := { s with faultLog := s.faultLog ++ [r] }
def State.setMem (s : State) (m : Memory) : State := { s with mem := m }
def State.setPending (s : State) (q : List CommandRecord) : State := { s with pending := q }

/-- The machine right after reset under the parameters `p` (70_reset_and_hazards.md R160). -/
def State.resetWith (p : Params) : State :=
  { params := p
    gdtr := p.gdtrReset
    ldtr := p.ldtrReset
    mode := .preExisting
    rspStatus := none
    rspEntry := none
    rspFields := none
    rspReg := none
    faultLog := []
    mem := []
    pending := [] }

/-- The machine right after reset under the parameter values the model names (log 2, log 3). -/
def State.reset : State := State.resetWith namedParams

end Sys2Proof.Machine
end

