-- ==== Sys2Proof/Machine/Flags.lean ====
section
/-!
DEFINITION. The status byte.

The block has no flags: every command rule says "Flags written: none". What a command reports of itself is
`RSP_STATUS` (30_encoding.md R67), computed here.
-/

namespace Sys2Proof.Machine

/-- The six reasons of `InvalidDescriptor` (30_encoding.md R67, 60_exceptions.md R141). -/
inductive Reason where
  | limitTooWide
  | baseTooWide
  | reservedSet
  | emptyTable
  | tableTooLarge
  | nullNotZero
deriving DecidableEq, Repr

/-- The reason's code, bits 7..4 of the status byte (30_encoding.md R67). -/
def reasonCode : Reason → BitVec 4
  | .limitTooWide => 1
  | .baseTooWide => 2
  | .reservedSet => 3
  | .emptyTable => 4
  | .tableTooLarge => 5
  | .nullNotZero => 6

/-- Status OK: outcome class 0 (30_encoding.md R67). -/
def statusOk : BitVec 8 := 0x00#8

/-- The status of `InvalidDescriptor(r)`: reason, two zero bits, class 1 (60_exceptions.md R141). -/
def statusInvalid (r : Reason) : BitVec 8 := reasonCode r ++ (0b00#2 ++ 0b01#2)

/-- The status of `IllegalCommand`: class 2 (60_exceptions.md R142). -/
def statusIllegal : BitVec 8 := 0x02#8

/-- The outcome class of a status byte, bits 1..0 (30_encoding.md R67). -/
def statusClass (x : BitVec 8) : BitVec 2 := x.extractLsb' 0 2

end Sys2Proof.Machine
end

