-- ==== Sys2Proof/Machine/Operands.lean ====
section
/-!
DEFINITION. The shared functions on operands: entry images, register images, table sizes and addresses, and the
checks that need no state.
-/

namespace Sys2Proof.Machine

open Sys2Proof.Config

/-! ### Entry images (30_encoding.md R63, R64; 40_entry_codec.md R80, R81) -/

/-- The access byte of a field record (40_entry_codec.md R80). -/
def accessByte (f : FieldRecord) : BitVec 8 := f.p ++ f.dpl ++ f.s ++ f.e ++ f.dc ++ f.rw ++ f.a

/-- The granularity byte of a field record (40_entry_codec.md R80). -/
def granByte (f : FieldRecord) : BitVec 8 := f.g ++ f.db ++ f.l ++ f.avl ++ f.limit.extractLsb' 16 4

/-- The classic 8 bytes of an entry as one word (40_entry_codec.md R80). -/
def classicWord (f : FieldRecord) : BitVec 64 :=
  f.base.extractLsb' 24 8 ++ granByte f ++ accessByte f ++ f.base.extractLsb' 0 24 ++ f.limit.extractLsb' 0 16

/-- `PackEntry` (40_entry_codec.md R80), widened to 96 bits with zeros when the stride is 8 (log 16). -/
def packEntry (k : Stride) (f : FieldRecord) : BitVec 96 :=
  match k with
  | .twelve => f.rsv ++ classicWord f
  | .eight => (0#32) ++ classicWord f

/-- The reserved field of an entry image, present only when the stride is 12 (30_encoding.md R63). -/
def reservedField (k : Stride) (x : BitVec 96) : BitVec 32 :=
  match k with
  | .twelve => x.extractLsb' 64 32
  | .eight => 0

/-- `UnpackEntry` (40_entry_codec.md R81). -/
def unpackEntry (k : Stride) (x : BitVec 96) : FieldRecord :=
  { limit := (x.extractLsb' 48 4 ++ x.extractLsb' 0 16).setWidth 32
    base := (x.extractLsb' 56 8 ++ x.extractLsb' 16 24).setWidth 64
    a := x.extractLsb' 40 1
    rw := x.extractLsb' 41 1
    dc := x.extractLsb' 42 1
    e := x.extractLsb' 43 1
    s := x.extractLsb' 44 1
    dpl := x.extractLsb' 45 2
    p := x.extractLsb' 47 1
    avl := x.extractLsb' 52 1
    l := x.extractLsb' 53 1
    db := x.extractLsb' 54 1
    g := x.extractLsb' 55 1
    rsv := reservedField k x }

/-- `CheckFields` (40_entry_codec.md R83): the first failing check decides the reason; `none` passes. -/
def checkFields (f : FieldRecord) : Option Reason :=
  if limitFieldMax < f.limit.toNat then some .limitTooWide
  else if baseFieldMax < f.base.toNat then some .baseTooWide
  else if f.rsv ≠ 0 then some .reservedSet
  else none

/-- The field record ENCSEG encodes (40_entry_codec.md R85). -/
def segFields (q : SegParams) : FieldRecord :=
  { base := q.base, limit := q.limit, g := q.g, db := q.db, l := q.l, dpl := q.dpl, p := q.p
    s := 1, e := q.kind, rw := 1, dc := 0, a := 0, avl := 0, rsv := 0 }

/-- The effective limit: the byte offset of the segment's last byte (40_entry_codec.md R82; the scaling of `g = 1` is
the spec's general knowledge, log 19). No command uses it. -/
def effLimit (limit : BitVec 20) (g : BitVec 1) : BitVec 32 :=
  if g = 1 then (limit.setWidth 32 <<< 12) ||| 0xFFF#32 else limit.setWidth 32

/-- The segment's size in bytes, 33 bits (40_entry_codec.md R82). No command uses it. -/
def segSize (limit : BitVec 20) (g : BitVec 1) : BitVec 33 := (effLimit limit g).setWidth 33 + 1

/-! ### Register images (30_encoding.md R65) -/

/-- `PackReg` (30_encoding.md R65). -/
def packReg (v : RegValue) : BitVec 80 := v.base ++ v.limit

/-- `UnpackReg` (30_encoding.md R65). -/
def unpackReg (x : BitVec 80) : RegValue := { limit := x.extractLsb' 0 16, base := x.extractLsb' 16 64 }

/-! ### Tables (41_descriptor_table.md R100, R101) -/

/-- `TableLen(n)` (41_descriptor_table.md R100). -/
def tableLen (k : Stride) (n : Nat) : Nat := n * k.bytes

/-- `TableLimit(n)` (41_descriptor_table.md R100); used only for `n` at least 1. -/
def tableLimit (k : Stride) (n : Nat) : Nat := tableLen k n - 1

/-- The address of entry `i` of a table at `a` (41_descriptor_table.md R100), unbounded (20_memory.md R48). -/
def entryAddr (k : Stride) (a i : Nat) : Nat := a + i * k.bytes

/-- `CheckSize(n)` (41_descriptor_table.md R101); `none` passes. -/
def checkSize (k : Stride) (n : Nat) : Option Reason :=
  if n = 0 then some .emptyTable
  else if 0xFFFF < tableLimit k n then some .tableTooLarge
  else none

/-- The register value that locates the table of `n` entries at `a0` (41_descriptor_table.md R104); the limit fits 16
bits once `CheckSize` has passed. -/
def tableReg (k : Stride) (a0 : Addr) (n : Nat) : RegValue :=
  { limit := BitVec.ofNat 16 (tableLimit k n), base := a0 }

/-! ### Checks of the register commands (42_gdtr_access.md R120, R121) -/

/-- `PrivOK(cpl)` (42_gdtr_access.md R120). -/
def privOk (cpl : BitVec 2) : Bool := cpl == 0

/-- `Canonical(b)` (42_gdtr_access.md R121): bits 63 down to VAW-1 of `b` are all zero or all one. -/
def canonical (vaw : Nat) (b : Addr) : Bool :=
  let high := b.toNat / 2 ^ (vaw - 1)
  high == 0 || high == 2 ^ (64 - (vaw - 1)) - 1

/-- A base that INSTALL and LOAD refuse (42_gdtr_access.md R121). -/
def baseRefused (p : Params) (b : Addr) : Bool := p.checkCanonicalBase && !canonical p.vaw b

/-- CAPTURE and CAPLDT at this ring fault (42_gdtr_access.md R123, R124). -/
def captureRefused (p : Params) (cpl : BitVec 2) : Bool := p.capturePrivileged && !privOk cpl

/-- The MODE an INSTALL of `v` enters (42_gdtr_access.md R126). -/
def modeOfInstall (p : Params) (v : RegValue) : Mode :=
  if v = p.gdtrReset then .preExisting else .flatInstalled

end Sys2Proof.Machine
end

