-- ==== Sys2Proof/Machine/Ops.lean ====
section
/-!
DEFINITION. The named operations over memory and registers: reading, writing and admission, the four outcomes of a
command, the fetch of the next command, and the requester's reads.
-/

namespace Sys2Proof.Machine

open Sys2Proof.Config

/-! ### Memory (20_memory.md R42) -/

/-- The byte the model has written at an address, if it has. -/
def Memory.get? : Memory → Nat → Option Byte
  | [], _ => none
  | (a, b) :: m, x => if x = a then some b else Memory.get? m x

/-- Write one byte, keeping the addresses strictly rising. -/
def Memory.set : Memory → Nat → Byte → Memory
  | [], x, v => [(x, v)]
  | (a, b) :: m, x, v =>
    if x < a then (x, v) :: (a, b) :: m
    else if x = a then (x, v) :: m
    else (a, b) :: Memory.set m x v

/-- Every address of the list is above `lo`, and they rise strictly and lie in the address space. -/
def Memory.risesFrom : Nat → Memory → Bool
  | _, [] => true
  | lo, (a, _) :: m => decide (lo ≤ a) && decide (a < addrSpaceSize) && Memory.risesFrom (a + 1) m

/-- The canonical form: addresses strictly rising, each below 2^64 (log 6). An unlisted address holds no value, so no
pair says what an unlisted address would. -/
def Memory.wf (m : Memory) : Bool := Memory.risesFrom 0 m

/-- Read one byte: what was last written there (20_memory.md R46), or the free value (log 5). -/
def readByte (m : Memory) (a : Nat) : Byte :=
  match Memory.get? m a with
  | some b => b
  | none => unwrittenByte a

/-- The `n` bytes from `a` up. -/
def readBytes (m : Memory) (a : Nat) : Nat → List Byte
  | 0 => []
  | n + 1 => readByte m a :: readBytes m (a + 1) n

/-- `MemRead(addr, n)` (20_memory.md R42). -/
def memRead (m : Memory) (a n : Nat) : Nat := leValue (readBytes m a n)

/-- Write bytes from `a` up. -/
def writeBytes (m : Memory) (a : Nat) : List Byte → Memory
  | [] => m
  | b :: bs => writeBytes (Memory.set m a b) (a + 1) bs

/-- `MemWrite(addr, n, v)` (20_memory.md R42). -/
def memWrite (m : Memory) (a n v : Nat) : Memory := writeBytes m a (leBytes n v)

/-- One byte address is admitted: it exists, and `MemAdmit` holds of it (20_memory.md R42). -/
def byteAdmitted (p : Params) (a : Nat) : Bool :=
  decide (a < addrSpaceSize) && p.memAdmit.any fun r => decide (r.base ≤ a) && decide (a < r.base + r.size)

/-- The `n` byte addresses from `a` up are admitted (20_memory.md R42). -/
def admitted (p : Params) (a : Nat) : Nat → Bool
  | 0 => true
  | n + 1 => byteAdmitted p a && admitted p (a + 1) n

/-- Go on only when the accesses are admitted: otherwise the block is stuck (20_memory.md R42, log 9). -/
def whenAdmitted (s : State) (a n : Nat) (go : Result) : Result :=
  if admitted s.params a n then go else .fault .unadmittedAccess

/-! ### Entries and tables in memory -/

/-- The entry image at an address, 96 bits, the bits a stride of 8 does not have zero (log 16). -/
def entryImage (k : Stride) (m : Memory) (a : Nat) : BitVec 96 := BitVec.ofNat 96 (memRead m a k.bytes)

/-- The entry image at an address has a nonzero reserved field (40_entry_codec.md R86; never when the stride is
8). -/
def entryReservedSet (k : Stride) (m : Memory) (a : Nat) : Bool := reservedField k (entryImage k m a) != 0

/-- One of the entries 1 to `c` of the table at `a` has a nonzero reserved field. Every such entry gives the same
reason, so their order decides nothing (60_exceptions.md R145). -/
def anyReservedSet (k : Stride) (m : Memory) (a : Nat) : Nat → Bool
  | 0 => false
  | c + 1 => anyReservedSet k m a c || entryReservedSet k m (entryAddr k a (c + 1))

/-- The part of the validation pass that reads memory (41_descriptor_table.md R103): entry 0 is zero in all its
bytes, then no other entry has its reserved field set; `none` passes. -/
def checkTable (k : Stride) (m : Memory) (a n : Nat) : Option Reason :=
  if memRead m a k.bytes ≠ 0 then some .nullNotZero
  else if anyReservedSet k m a (n - 1) then some .reservedSet
  else none

/-- Copy the entries 1 to `c` of the sequence at `a1` in `src` to the table at `a0` (41_descriptor_table.md R102).
`src` is the memory before the command, so overlap does not matter. -/
def copyEntries (k : Stride) (src : Memory) (a0 a1 : Nat) : Nat → Memory → Memory
  | 0, m => m
  | c + 1, m =>
    memWrite (copyEntries k src a0 a1 c m) (entryAddr k a0 (c + 1)) k.bytes
      (memRead src (entryAddr k a1 (c + 1)) k.bytes)

/-! ### The outcomes of a command (60_exceptions.md R140) -/

/-- `finish OK` (60_exceptions.md R140). -/
def finishOk (s : State) : State := s.setStatus statusOk

/-- `fail InvalidDescriptor(r)`: RSP_STATUS and nothing else (60_exceptions.md R141). -/
def failInvalid (r : Reason) (s : State) : State := s.setStatus (statusInvalid r)

/-- IllegalCommand: RSP_STATUS and nothing else (60_exceptions.md R142). -/
def illegalCommand (s : State) : State := s.setStatus statusIllegal

/-- The vector of the general-protection fault (60_exceptions.md R143; the number is the spec's general knowledge,
log 11). -/
def gpVector : Nat := 13

/-- TAKING AN EXCEPTION: `raise HardwareFault(GP, 0)` by the command `op` issued at ring `cpl` (60_exceptions.md R143).
The command is abandoned and one record is appended to FAULT_LOG; no register, no mode and no memory changes, and the
block saves nothing (R147). Where control goes is the processor's (log 10). There is no return from it: the block is
ready for the next command with this state (R148). -/
def raiseHardwareFault (op : BitVec 8) (cpl : BitVec 2) (s : State) : State :=
  s.logFault { op := op, cpl := cpl, vector := gpVector, errcode := 0 }

/-- A check that fails ends the command with its reason; one that passes goes on. -/
def orFail (c : Option Reason) (s : State) (go : Result) : Result :=
  match c with
  | some r => .next (failInvalid r s)
  | none => go

/-! ### The next command -/

/-- The command at the front of the queue and the state with it taken (10_state.md R21, log 8). -/
def nextCommand (s : State) : Option (CommandRecord × State) :=
  match s.pending with
  | [] => none
  | r :: rest => some (r, s.setPending rest)

/-! ### The requester's reads of the response registers (10_state.md R25) -/

/-- A read of a response register faults while it holds no value: "a model must fault a read of a response register nothing
has written" (10_state.md R25; 92_eei_decisions.md D22, 93_implementation_defined.md U7). -/
def readResponse {α : Type} (x : Option α) : Except ReadFault α :=
  match x with
  | some v => .ok v
  | none => .error .responseNotWritten

/-- Read RSP_STATUS (10_state.md R25). -/
def readRspStatus (s : State) : Except ReadFault (BitVec 8) := readResponse s.rspStatus
/-- Read RSP_ENTRY (10_state.md R25). -/
def readRspEntry (s : State) : Except ReadFault (BitVec 96) := readResponse s.rspEntry
/-- Read RSP_FIELDS (10_state.md R25). -/
def readRspFields (s : State) : Except ReadFault FieldRecord := readResponse s.rspFields
/-- Read RSP_REG (10_state.md R25). -/
def readRspReg (s : State) : Except ReadFault (BitVec 80) := readResponse s.rspReg

end Sys2Proof.Machine
end

