-- ==== Sys2Proof/Machine/Table.lean ====
section
/-!
DEFINITION. The descriptor table: TBUILD, TCHECK, TVIEW (41_descriptor_table.md R102 to R104), and the validation pass
that LOAD shares.
-/

namespace Sys2Proof.Machine

/-- The validation pass: CheckSize, then the table read whole and checked (41_descriptor_table.md R103). `go` runs when
the table passes. -/
def withValidTable (a0 : Addr) (n : BitVec 32) (s : State) (go : State) : Result :=
  orFail (checkSize s.params.stride n.toNat) s <|
    whenAdmitted s a0.toNat (tableLen s.params.stride n.toNat) <|
      .next (match checkTable s.params.stride s.mem a0.toNat n.toNat with
        | some r => failInvalid r s
        | none => go)

/-- The memory TBUILD leaves: a null entry 0 and the source's entries 1 to n-1 (41_descriptor_table.md R102). -/
def builtTable (a0 a1 : Addr) (n : BitVec 32) (s : State) : Memory :=
  copyEntries s.params.stride s.mem a0.toNat a1.toNat (n.toNat - 1)
    (memWrite s.mem a0.toNat s.params.stride.bytes 0)

/-- TBUILD (41_descriptor_table.md R102). The source's entries 1 to n-1 are read and checked before the destination is
looked at; source slot 0 is never read (log 15). -/
def execTbuild (a0 a1 : Addr) (n : BitVec 32) (s : State) : Result :=
  orFail (checkSize s.params.stride n.toNat) s <|
    whenAdmitted s (entryAddr s.params.stride a1.toNat 1) (tableLen s.params.stride (n.toNat - 1)) <|
      if anyReservedSet s.params.stride s.mem a1.toNat (n.toNat - 1) then .next (failInvalid .reservedSet s)
      else
        whenAdmitted s a0.toNat (tableLen s.params.stride n.toNat) <|
          .next (finishOk (s.setMem (builtTable a0 a1 n s)))

/-- TCHECK (41_descriptor_table.md R103). -/
def execTcheck (a0 : Addr) (n : BitVec 32) (s : State) : Result := withValidTable a0 n s (finishOk s)

/-- TVIEW (41_descriptor_table.md R104): `a0` is a value, no memory is read. -/
def execTview (a0 : Addr) (n : BitVec 32) (s : State) : Result :=
  orFail (checkSize s.params.stride n.toNat) s <|
    .next (finishOk (s.setReg (packReg (tableReg s.params.stride a0 n.toNat))))

end Sys2Proof.Machine
end

