-- ==== Sys2Proof/Machine/Access.lean ====
section
/-!
DEFINITION. Register access: INSTALL, CAPTURE, CAPLDT, LOAD (42_gdtr_access.md R122 to R125).
-/

namespace Sys2Proof.Machine

open Sys2Proof.Config

/-- The register image at an address (30_encoding.md R65). -/
def regImage (m : Memory) (a : Nat) : BitVec 80 := BitVec.ofNat 80 (memRead m a regImageBytes)

/-- The canonical check and, when it passes, the rest of a privileged install (42_gdtr_access.md R121). -/
def unlessBaseRefused (op : BitVec 8) (cpl : BitVec 2) (b : Addr) (s : State) (go : State) : State :=
  if baseRefused s.params b then raiseHardwareFault op cpl s else go

/-- Store a register's image and report it: the body CAPTURE and CAPLDT share (42_gdtr_access.md R123, R124). -/
def captureReg (op : BitVec 8) (v : RegValue) (a0 : Addr) (cpl : BitVec 2) (s : State) : Result :=
  if captureRefused s.params cpl then .next (raiseHardwareFault op cpl s)
  else
    whenAdmitted s a0.toNat regImageBytes <|
      .next (finishOk ((s.setMem (memWrite s.mem a0.toNat regImageBytes (packReg v).toNat)).setReg (packReg v)))

/-- INSTALL (42_gdtr_access.md R122): the privilege check comes before the memory read. -/
def execInstall (a0 : Addr) (cpl : BitVec 2) (s : State) : Result :=
  if privOk cpl then
    whenAdmitted s a0.toNat regImageBytes <|
      let v := unpackReg (regImage s.mem a0.toNat)
      .next (unlessBaseRefused opInstall cpl v.base s
        (finishOk ((s.setGdtr v).setMode (modeOfInstall s.params v))))
  else .next (raiseHardwareFault opInstall cpl s)

/-- CAPTURE (42_gdtr_access.md R123). -/
def execCapture (a0 : Addr) (cpl : BitVec 2) (s : State) : Result := captureReg opCapture s.gdtr a0 cpl s

/-- CAPLDT (42_gdtr_access.md R124). -/
def execCapldt (a0 : Addr) (cpl : BitVec 2) (s : State) : Result := captureReg opCapldt s.ldtr a0 cpl s

/-- LOAD (42_gdtr_access.md R125): validation first, at any ring; then privilege, then the canonical check. -/
def execLoad (a0 : Addr) (n : BitVec 32) (cpl : BitVec 2) (s : State) : Result :=
  let v := tableReg s.params.stride a0 n.toNat
  withValidTable a0 n s <|
    if privOk cpl then
      unlessBaseRefused opLoad cpl v.base s
        (finishOk (((s.setGdtr v).setMode .flatInstalled).setReg (packReg v)))
    else raiseHardwareFault opLoad cpl s

end Sys2Proof.Machine
end

