-- ==== Sys2Proof/Machine/Codec.lean ====
section
/-!
DEFINITION. The entry codec: ENCODE, ENCSEG, DECODE, CHKENT (40_entry_codec.md R84 to R87).
-/

namespace Sys2Proof.Machine

/-- Check, pack and store a field record: the body ENCODE and ENCSEG share (40_entry_codec.md R84). -/
def storeEntry (a0 : Addr) (f : FieldRecord) (s : State) : Result :=
  orFail (checkFields f) s <|
    let img := packEntry s.params.stride f
    whenAdmitted s a0.toNat s.params.stride.bytes <|
      .next (finishOk ((s.setMem (memWrite s.mem a0.toNat s.params.stride.bytes img.toNat)).setEntry img))

/-- Read an entry and check its reserved field: the body DECODE and CHKENT share (40_entry_codec.md R86, R87). -/
def withEntry (a0 : Addr) (s : State) (done : BitVec 96 → State) : Result :=
  whenAdmitted s a0.toNat s.params.stride.bytes <|
    .next (if entryReservedSet s.params.stride s.mem a0.toNat then failInvalid .reservedSet s
      else finishOk (done (entryImage s.params.stride s.mem a0.toNat)))

/-- ENCODE (40_entry_codec.md R84). -/
def execEncode (a0 : Addr) (f : FieldRecord) (s : State) : Result := storeEntry a0 f s

/-- ENCSEG (40_entry_codec.md R85): exactly ENCODE of the field record its parameters stand for. -/
def execEncseg (a0 : Addr) (sp : SegParams) (s : State) : Result := storeEntry a0 (segFields sp) s

/-- DECODE (40_entry_codec.md R86). -/
def execDecode (a0 : Addr) (s : State) : Result :=
  withEntry a0 s fun x => s.setFields (unpackEntry s.params.stride x)

/-- CHKENT (40_entry_codec.md R87). -/
def execChkent (a0 : Addr) (s : State) : Result := withEntry a0 s fun _ => s

end Sys2Proof.Machine
end

