-- ==== Sys2Proof/Machine/Dispatch.lean ====
section
/-!
DEFINITION. The dispatch: one arm per command, each a direct call of its meaning.
-/

namespace Sys2Proof.Machine

def exec (i : Instr) (s : State) : Host.Outcome State Fault Refusal :=
  match i with
  | .encode a0 f => Sys2Proof.Machine.execEncode a0 f s
  | .encseg a0 sp => Sys2Proof.Machine.execEncseg a0 sp s
  | .decode a0 => Sys2Proof.Machine.execDecode a0 s
  | .chkent a0 => Sys2Proof.Machine.execChkent a0 s
  | .tbuild a0 a1 n => Sys2Proof.Machine.execTbuild a0 a1 n s
  | .tcheck a0 n => Sys2Proof.Machine.execTcheck a0 n s
  | .tview a0 n => Sys2Proof.Machine.execTview a0 n s
  | .install a0 cpl => Sys2Proof.Machine.execInstall a0 cpl s
  | .capture a0 cpl => Sys2Proof.Machine.execCapture a0 cpl s
  | .capldt a0 cpl => Sys2Proof.Machine.execCapldt a0 cpl s
  | .load a0 n cpl => Sys2Proof.Machine.execLoad a0 n cpl s

end Sys2Proof.Machine
end

