-- ==== Sys2Proof/Machine/Step.lean ====
section
/-!
DEFINITION. One step of the block: take the next issued command and carry it out.
-/

namespace Sys2Proof.Machine

/-- One step. With no command issued the block waits (70_reset_and_hazards.md R160): the state stays. Otherwise the
command at the front of the queue is taken (10_state.md R21) and runs; one with a reserved opcode ends in the
IllegalCommand outcome (60_exceptions.md R142). -/
def step (s : State) : Host.Outcome State Fault Refusal :=
  match nextCommand s with
  | none => .next s
  | some (r, s') =>
    match decodeRecord r with
    | .ok i => exec i s'
    | .error _ => .next (illegalCommand s')

/-- `s` with the command of a table word issued next, ahead of what was pending (log 8). -/
def State.withFetchWord (s : State) (nbits w : Nat) : State :=
  s.setPending (recordOfTableWord nbits w :: s.pending)

end Sys2Proof.Machine
end

