-- ==== Sys2Proof/Laws/Memory.lean ====
section
/-!
SUPPORT. The laws of memory: byte order, reads after writes, the canonical form, admission.
-/

namespace Sys2Proof

/-! ### Byte order -/

@[simp] theorem leBytes_length (n v : Nat) : (leBytes n v).length = n := by
  induction n generalizing v with
  | zero => rfl
  | succ n ih => simp [leBytes, ih]

theorem leValue_lt (bs : List Byte) : leValue bs < 256 ^ bs.length := by
  induction bs with
  | nil => simp [leValue]
  | cons b bs ih =>
    have hb : b.toNat < 256 := b.isLt
    simp only [leValue, List.length_cons, pow_succ]
    omega

/-- Storing `n` bytes of a value and reading them back gives the value modulo 2^(8n). -/
theorem leValue_leBytes (n v : Nat) : leValue (leBytes n v) = v % 256 ^ n := by
  induction n generalizing v with
  | zero => simp [leBytes, leValue, Nat.mod_one]
  | succ n ih =>
    have h : (BitVec.ofNat 8 v).toNat = v % 256 := by simp
    rw [leBytes, leValue, ih, h, pow_succ', Nat.mod_mul]

theorem leBytes_leValue (bs : List Byte) : leBytes bs.length (leValue bs) = bs := by
  induction bs with
  | nil => rfl
  | cons b bs ih =>
    have hb : b.toNat < 256 := b.isLt
    have hdiv : (b.toNat + 256 * leValue bs) / 256 = leValue bs := by omega
    have hmod : BitVec.ofNat 8 (b.toNat + 256 * leValue bs) = b := by
      apply BitVec.eq_of_toNat_eq; rw [BitVec.toNat_ofNat]; omega
    simp [leBytes, leValue, hdiv, hmod, ih]

/-- The byte `k` of a stored value is its bits 8k+7..8k. -/
theorem leBytes_getElem (n v k : Nat) (h : k < (leBytes n v).length) :
    (leBytes n v)[k] = BitVec.ofNat 8 (v / 256 ^ k) := by
  induction n generalizing v k with
  | zero => simp at h
  | succ n ih =>
    cases k with
    | zero => simp [leBytes]
    | succ k =>
      have hk : k < (leBytes n (v / 256)).length := by simpa using h
      simp only [leBytes, List.getElem_cons_succ, ih _ _ hk, Nat.div_div_eq_div_mul, pow_succ']

end Sys2Proof

namespace Sys2Proof.Machine

open Sys2Proof.Config

/-! ### One byte -/

@[simp] theorem Memory.get?_nil (a : Nat) : Memory.get? [] a = none := rfl

theorem Memory.get?_set (m : Memory) (x a : Nat) (v : Byte) :
    Memory.get? (Memory.set m x v) a = if a = x then some v else Memory.get? m a := by
  induction m with
  | nil => simp [Memory.set, Memory.get?]
  | cons c m ih =>
    obtain ⟨y, b⟩ := c
    simp only [Memory.set]
    split
    · simp [Memory.get?]
    · split
      · subst_vars; simp only [Memory.get?]; split <;> rfl
      · simp only [Memory.get?, ih]
        by_cases h1 : a = y
        · subst h1; simp; omega
        · simp [h1]

theorem readByte_set (m : Memory) (x a : Nat) (v : Byte) :
    readByte (Memory.set m x v) a = if a = x then v else readByte m a := by
  simp only [readByte, Memory.get?_set]
  by_cases h : a = x <;> simp [h]

/-! ### Reading -/

@[simp] theorem readBytes_length (m : Memory) (a n : Nat) : (readBytes m a n).length = n := by
  induction n generalizing a with
  | zero => rfl
  | succ n ih => simp [readBytes, ih]

theorem readBytes_getElem (m : Memory) (a n k : Nat) (h : k < (readBytes m a n).length) :
    (readBytes m a n)[k] = readByte m (a + k) := by
  induction n generalizing a k with
  | zero => simp at h
  | succ n ih =>
    cases k with
    | zero => simp [readBytes]
    | succ k =>
      have hk : k < (readBytes m (a + 1) n).length := by simpa using h
      simp only [readBytes, List.getElem_cons_succ, ih _ _ hk]
      congr 1; omega

/-- A read sees only the bytes of its range. -/
theorem readBytes_congr {m m' : Memory} {a n : Nat} (h : ∀ k < n, readByte m (a + k) = readByte m' (a + k)) :
    readBytes m a n = readBytes m' a n := by
  apply List.ext_getElem
  · simp
  · intro k h1 h2
    rw [readBytes_getElem, readBytes_getElem]
    exact h k (by simpa using h1)

theorem memRead_congr {m m' : Memory} {a n : Nat} (h : ∀ k < n, readByte m (a + k) = readByte m' (a + k)) :
    memRead m a n = memRead m' a n := by
  rw [memRead, memRead, readBytes_congr h]

theorem memRead_lt (m : Memory) (a n : Nat) : memRead m a n < 256 ^ n := by
  simpa [memRead] using leValue_lt (readBytes m a n)

theorem leBytes_memRead (m : Memory) (a n : Nat) : leBytes n (memRead m a n) = readBytes m a n := by
  simpa [memRead] using leBytes_leValue (readBytes m a n)

/-- The byte `k` of a value read is the byte at `a + k`. -/
theorem memRead_byte (m : Memory) (a n k : Nat) (hk : k < n) :
    BitVec.ofNat 8 (memRead m a n / 256 ^ k) = readByte m (a + k) := by
  have h : k < (leBytes n (memRead m a n)).length := by simpa using hk
  rw [← leBytes_getElem n (memRead m a n) k h]
  simp only [leBytes_memRead]
  rw [readBytes_getElem]

/-- Two reads give the same value exactly when they see the same bytes. -/
theorem memRead_eq_iff {m m' : Memory} {a b n : Nat} :
    memRead m a n = memRead m' b n ↔ ∀ k < n, readByte m (a + k) = readByte m' (b + k) := by
  constructor
  · intro h k hk
    rw [← memRead_byte m a n k hk, ← memRead_byte m' b n k hk, h]
  · intro h
    have : readBytes m a n = readBytes m' b n := by
      apply List.ext_getElem
      · simp
      · intro k h1 h2
        rw [readBytes_getElem, readBytes_getElem]
        exact h k (by simpa using h1)
    rw [memRead, memRead, this]

/-! ### Writing -/

theorem readByte_writeBytes (bs : List Byte) (m : Memory) (a x : Nat) :
    readByte (writeBytes m a bs) x =
      if a ≤ x ∧ x < a + bs.length then bs.getD (x - a) 0 else readByte m x := by
  induction bs generalizing m a with
  | nil =>
    have h : ¬(a ≤ x ∧ x < a + ([] : List Byte).length) := by simp
    rw [if_neg h]; rfl
  | cons b bs ih =>
    simp only [writeBytes, ih, readByte_set, List.length_cons]
    by_cases h1 : x = a
    · subst h1; simp
    · by_cases h2 : a + 1 ≤ x ∧ x < a + 1 + bs.length
      · have h3 : a ≤ x ∧ x < a + (bs.length + 1) := by omega
        obtain ⟨d, hd⟩ : ∃ d, x - a = d + 1 := ⟨x - a - 1, by omega⟩
        have hd' : x - (a + 1) = d := by omega
        rw [if_pos h2, if_pos h3, hd, hd', List.getD_cons_succ]
      · have h3 : ¬(a ≤ x ∧ x < a + (bs.length + 1)) := by omega
        rw [if_neg h2, if_neg h3, if_neg h1]

/-- What `MemWrite` does: the byte at `a + k` becomes bits 8k+7..8k of the value, and every other byte stays. -/
theorem readByte_memWrite (m : Memory) (a n v x : Nat) :
    readByte (memWrite m a n v) x =
      if a ≤ x ∧ x < a + n then BitVec.ofNat 8 (v / 256 ^ (x - a)) else readByte m x := by
  rw [memWrite, readByte_writeBytes, leBytes_length]
  by_cases h : a ≤ x ∧ x < a + n
  · have hk : x - a < (leBytes n v).length := by rw [leBytes_length]; omega
    rw [if_pos h, if_pos h, List.getD_eq_getElem _ _ hk, leBytes_getElem n v _ hk]
  · rw [if_neg h, if_neg h]

theorem readByte_memWrite_other {m : Memory} {a n v x : Nat} (h : ¬(a ≤ x ∧ x < a + n)) :
    readByte (memWrite m a n v) x = readByte m x := by
  rw [readByte_memWrite, if_neg h]

/-! ### The canonical form -/

theorem Memory.risesFrom_set {m : Memory} {lo x : Nat} (v : Byte) (hm : Memory.risesFrom lo m = true) (hlo : lo ≤ x)
    (hx : x < addrSpaceSize) : Memory.risesFrom lo (Memory.set m x v) = true := by
  induction m generalizing lo with
  | nil => simp [Memory.set, Memory.risesFrom, hlo, hx]
  | cons c m ih =>
    obtain ⟨y, b⟩ := c
    simp only [Memory.risesFrom, Bool.and_eq_true, decide_eq_true_eq] at hm
    obtain ⟨⟨h1, h2⟩, h3⟩ := hm
    simp only [Memory.set]
    split
    · next h => simp [Memory.risesFrom, hlo, hx, h2, h3, h]
    · split
      · subst_vars; simp [Memory.risesFrom, h1, h2, h3]
      · have hyx : y + 1 ≤ x := by omega
        simp [Memory.risesFrom, h1, h2, ih h3 hyx]

theorem Memory.wf_set {m : Memory} {x : Nat} (v : Byte) (hm : Memory.wf m = true) (hx : x < addrSpaceSize) :
    Memory.wf (Memory.set m x v) = true :=
  Memory.risesFrom_set v hm (Nat.zero_le x) hx

theorem writeBytes_wf (bs : List Byte) {m : Memory} {a : Nat} (hm : Memory.wf m = true)
    (ha : a + bs.length ≤ addrSpaceSize) : Memory.wf (writeBytes m a bs) = true := by
  induction bs generalizing m a with
  | nil => exact hm
  | cons b bs ih =>
    simp only [List.length_cons] at ha
    exact ih (Memory.wf_set b hm (by omega)) (by omega)

/-- `MemWrite` inside the address space keeps the canonical form. -/
theorem memWrite_wf {m : Memory} {a n v : Nat} (hm : Memory.wf m = true) (ha : a + n ≤ addrSpaceSize) :
    Memory.wf (memWrite m a n v) = true :=
  writeBytes_wf _ hm (by simpa using ha)

/-- The memory after reset has the canonical form. -/
theorem resetWith_mem_wf (p : Params) : Memory.wf (State.resetWith p).mem = true := rfl

/-! ### Admission -/

theorem admitted_iff (p : Params) (a n : Nat) : admitted p a n = true ↔ ∀ k < n, byteAdmitted p (a + k) = true := by
  induction n generalizing a with
  | zero => simp [admitted]
  | succ n ih =>
    simp only [admitted, Bool.and_eq_true, ih]
    constructor
    · rintro ⟨h0, h⟩ k hk
      cases k with
      | zero => exact h0
      | succ k => have := h k (by omega); rwa [show a + 1 + k = a + (k + 1) by omega] at this
    · intro h
      refine ⟨h 0 (by omega), fun k hk => ?_⟩
      rw [show a + 1 + k = a + (k + 1) by omega]
      exact h (k + 1) (by omega)

theorem byteAdmitted_lt {p : Params} {a : Nat} (h : byteAdmitted p a = true) : a < addrSpaceSize := by
  simp only [byteAdmitted, Bool.and_eq_true, decide_eq_true_eq] at h
  exact h.1

/-- An admitted access of at least one byte ends inside the address space. -/
theorem admitted_le {p : Params} {a n : Nat} (hn : 0 < n) (h : admitted p a n = true) : a + n ≤ addrSpaceSize := by
  have := byteAdmitted_lt ((admitted_iff p a n).1 h (n - 1) (by omega))
  omega

/-- One region that holds the whole access admits it. -/
theorem admitted_of_region {p : Params} {a n : Nat} {r : Region} (hr : r ∈ p.memAdmit) (h1 : r.base ≤ a)
    (h2 : a + n ≤ r.base + r.size) (h3 : a + n ≤ addrSpaceSize) : admitted p a n = true := by
  rw [admitted_iff]
  intro k hk
  simp only [byteAdmitted, Bool.and_eq_true, decide_eq_true_eq, List.any_eq_true]
  exact ⟨by omega, r, hr, by omega, by omega⟩

end Sys2Proof.Machine
end

