-- ==== Sys2Proof/Laws/State.lean ====
section
/-!
SUPPORT. One lemma per field per update of `State`, so that no proof unfolds a record update.
-/

namespace Sys2Proof.Machine

/-! ### `State.setGdtr` -/

@[simp] theorem State.setGdtr_params (s : State) (v : RegValue) : (s.setGdtr v).params = s.params := rfl
@[simp] theorem State.setGdtr_gdtr (s : State) (v : RegValue) : (s.setGdtr v).gdtr = v := rfl
@[simp] theorem State.setGdtr_ldtr (s : State) (v : RegValue) : (s.setGdtr v).ldtr = s.ldtr := rfl
@[simp] theorem State.setGdtr_mode (s : State) (v : RegValue) : (s.setGdtr v).mode = s.mode := rfl
@[simp] theorem State.setGdtr_rspStatus (s : State) (v : RegValue) : (s.setGdtr v).rspStatus = s.rspStatus := rfl
@[simp] theorem State.setGdtr_rspEntry (s : State) (v : RegValue) : (s.setGdtr v).rspEntry = s.rspEntry := rfl
@[simp] theorem State.setGdtr_rspFields (s : State) (v : RegValue) : (s.setGdtr v).rspFields = s.rspFields := rfl
@[simp] theorem State.setGdtr_rspReg (s : State) (v : RegValue) : (s.setGdtr v).rspReg = s.rspReg := rfl
@[simp] theorem State.setGdtr_faultLog (s : State) (v : RegValue) : (s.setGdtr v).faultLog = s.faultLog := rfl
@[simp] theorem State.setGdtr_mem (s : State) (v : RegValue) : (s.setGdtr v).mem = s.mem := rfl
@[simp] theorem State.setGdtr_pending (s : State) (v : RegValue) : (s.setGdtr v).pending = s.pending := rfl

/-! ### `State.setMode` -/

@[simp] theorem State.setMode_params (s : State) (m : Mode) : (s.setMode m).params = s.params := rfl
@[simp] theorem State.setMode_gdtr (s : State) (m : Mode) : (s.setMode m).gdtr = s.gdtr := rfl
@[simp] theorem State.setMode_ldtr (s : State) (m : Mode) : (s.setMode m).ldtr = s.ldtr := rfl
@[simp] theorem State.setMode_mode (s : State) (m : Mode) : (s.setMode m).mode = m := rfl
@[simp] theorem State.setMode_rspStatus (s : State) (m : Mode) : (s.setMode m).rspStatus = s.rspStatus := rfl
@[simp] theorem State.setMode_rspEntry (s : State) (m : Mode) : (s.setMode m).rspEntry = s.rspEntry := rfl
@[simp] theorem State.setMode_rspFields (s : State) (m : Mode) : (s.setMode m).rspFields = s.rspFields := rfl
@[simp] theorem State.setMode_rspReg (s : State) (m : Mode) : (s.setMode m).rspReg = s.rspReg := rfl
@[simp] theorem State.setMode_faultLog (s : State) (m : Mode) : (s.setMode m).faultLog = s.faultLog := rfl
@[simp] theorem State.setMode_mem (s : State) (m : Mode) : (s.setMode m).mem = s.mem := rfl
@[simp] theorem State.setMode_pending (s : State) (m : Mode) : (s.setMode m).pending = s.pending := rfl

/-! ### `State.setStatus` -/

@[simp] theorem State.setStatus_params (s : State) (x : BitVec 8) : (s.setStatus x).params = s.params := rfl
@[simp] theorem State.setStatus_gdtr (s : State) (x : BitVec 8) : (s.setStatus x).gdtr = s.gdtr := rfl
@[simp] theorem State.setStatus_ldtr (s : State) (x : BitVec 8) : (s.setStatus x).ldtr = s.ldtr := rfl
@[simp] theorem State.setStatus_mode (s : State) (x : BitVec 8) : (s.setStatus x).mode = s.mode := rfl
@[simp] theorem State.setStatus_rspStatus (s : State) (x : BitVec 8) : (s.setStatus x).rspStatus = some x := rfl
@[simp] theorem State.setStatus_rspEntry (s : State) (x : BitVec 8) : (s.setStatus x).rspEntry = s.rspEntry := rfl
@[simp] theorem State.setStatus_rspFields (s : State) (x : BitVec 8) : (s.setStatus x).rspFields = s.rspFields := rfl
@[simp] theorem State.setStatus_rspReg (s : State) (x : BitVec 8) : (s.setStatus x).rspReg = s.rspReg := rfl
@[simp] theorem State.setStatus_faultLog (s : State) (x : BitVec 8) : (s.setStatus x).faultLog = s.faultLog := rfl
@[simp] theorem State.setStatus_mem (s : State) (x : BitVec 8) : (s.setStatus x).mem = s.mem := rfl
@[simp] theorem State.setStatus_pending (s : State) (x : BitVec 8) : (s.setStatus x).pending = s.pending := rfl

/-! ### `State.setEntry` -/

@[simp] theorem State.setEntry_params (s : State) (x : BitVec 96) : (s.setEntry x).params = s.params := rfl
@[simp] theorem State.setEntry_gdtr (s : State) (x : BitVec 96) : (s.setEntry x).gdtr = s.gdtr := rfl
@[simp] theorem State.setEntry_ldtr (s : State) (x : BitVec 96) : (s.setEntry x).ldtr = s.ldtr := rfl
@[simp] theorem State.setEntry_mode (s : State) (x : BitVec 96) : (s.setEntry x).mode = s.mode := rfl
@[simp] theorem State.setEntry_rspStatus (s : State) (x : BitVec 96) : (s.setEntry x).rspStatus = s.rspStatus := rfl
@[simp] theorem State.setEntry_rspEntry (s : State) (x : BitVec 96) : (s.setEntry x).rspEntry = some x := rfl
@[simp] theorem State.setEntry_rspFields (s : State) (x : BitVec 96) : (s.setEntry x).rspFields = s.rspFields := rfl
@[simp] theorem State.setEntry_rspReg (s : State) (x : BitVec 96) : (s.setEntry x).rspReg = s.rspReg := rfl
@[simp] theorem State.setEntry_faultLog (s : State) (x : BitVec 96) : (s.setEntry x).faultLog = s.faultLog := rfl
@[simp] theorem State.setEntry_mem (s : State) (x : BitVec 96) : (s.setEntry x).mem = s.mem := rfl
@[simp] theorem State.setEntry_pending (s : State) (x : BitVec 96) : (s.setEntry x).pending = s.pending := rfl

/-! ### `State.setFields` -/

@[simp] theorem State.setFields_params (s : State) (f : FieldRecord) : (s.setFields f).params = s.params := rfl
@[simp] theorem State.setFields_gdtr (s : State) (f : FieldRecord) : (s.setFields f).gdtr = s.gdtr := rfl
@[simp] theorem State.setFields_ldtr (s : State) (f : FieldRecord) : (s.setFields f).ldtr = s.ldtr := rfl
@[simp] theorem State.setFields_mode (s : State) (f : FieldRecord) : (s.setFields f).mode = s.mode := rfl
@[simp] theorem State.setFields_rspStatus (s : State) (f : FieldRecord) : (s.setFields f).rspStatus = s.rspStatus := rfl
@[simp] theorem State.setFields_rspEntry (s : State) (f : FieldRecord) : (s.setFields f).rspEntry = s.rspEntry := rfl
@[simp] theorem State.setFields_rspFields (s : State) (f : FieldRecord) : (s.setFields f).rspFields = some f := rfl
@[simp] theorem State.setFields_rspReg (s : State) (f : FieldRecord) : (s.setFields f).rspReg = s.rspReg := rfl
@[simp] theorem State.setFields_faultLog (s : State) (f : FieldRecord) : (s.setFields f).faultLog = s.faultLog := rfl
@[simp] theorem State.setFields_mem (s : State) (f : FieldRecord) : (s.setFields f).mem = s.mem := rfl
@[simp] theorem State.setFields_pending (s : State) (f : FieldRecord) : (s.setFields f).pending = s.pending := rfl

/-! ### `State.setReg` -/

@[simp] theorem State.setReg_params (s : State) (x : BitVec 80) : (s.setReg x).params = s.params := rfl
@[simp] theorem State.setReg_gdtr (s : State) (x : BitVec 80) : (s.setReg x).gdtr = s.gdtr := rfl
@[simp] theorem State.setReg_ldtr (s : State) (x : BitVec 80) : (s.setReg x).ldtr = s.ldtr := rfl
@[simp] theorem State.setReg_mode (s : State) (x : BitVec 80) : (s.setReg x).mode = s.mode := rfl
@[simp] theorem State.setReg_rspStatus (s : State) (x : BitVec 80) : (s.setReg x).rspStatus = s.rspStatus := rfl
@[simp] theorem State.setReg_rspEntry (s : State) (x : BitVec 80) : (s.setReg x).rspEntry = s.rspEntry := rfl
@[simp] theorem State.setReg_rspFields (s : State) (x : BitVec 80) : (s.setReg x).rspFields = s.rspFields := rfl
@[simp] theorem State.setReg_rspReg (s : State) (x : BitVec 80) : (s.setReg x).rspReg = some x := rfl
@[simp] theorem State.setReg_faultLog (s : State) (x : BitVec 80) : (s.setReg x).faultLog = s.faultLog := rfl
@[simp] theorem State.setReg_mem (s : State) (x : BitVec 80) : (s.setReg x).mem = s.mem := rfl
@[simp] theorem State.setReg_pending (s : State) (x : BitVec 80) : (s.setReg x).pending = s.pending := rfl

/-! ### `State.logFault` -/

@[simp] theorem State.logFault_params (s : State) (r : FaultRecord) : (s.logFault r).params = s.params := rfl
@[simp] theorem State.logFault_gdtr (s : State) (r : FaultRecord) : (s.logFault r).gdtr = s.gdtr := rfl
@[simp] theorem State.logFault_ldtr (s : State) (r : FaultRecord) : (s.logFault r).ldtr = s.ldtr := rfl
@[simp] theorem State.logFault_mode (s : State) (r : FaultRecord) : (s.logFault r).mode = s.mode := rfl
@[simp] theorem State.logFault_rspStatus (s : State) (r : FaultRecord) : (s.logFault r).rspStatus = s.rspStatus := rfl
@[simp] theorem State.logFault_rspEntry (s : State) (r : FaultRecord) : (s.logFault r).rspEntry = s.rspEntry := rfl
@[simp] theorem State.logFault_rspFields (s : State) (r : FaultRecord) : (s.logFault r).rspFields = s.rspFields := rfl
@[simp] theorem State.logFault_rspReg (s : State) (r : FaultRecord) : (s.logFault r).rspReg = s.rspReg := rfl
@[simp] theorem State.logFault_faultLog (s : State) (r : FaultRecord) : (s.logFault r).faultLog = s.faultLog ++ [r] := rfl
@[simp] theorem State.logFault_mem (s : State) (r : FaultRecord) : (s.logFault r).mem = s.mem := rfl
@[simp] theorem State.logFault_pending (s : State) (r : FaultRecord) : (s.logFault r).pending = s.pending := rfl

/-! ### `State.setMem` -/

@[simp] theorem State.setMem_params (s : State) (m : Memory) : (s.setMem m).params = s.params := rfl
@[simp] theorem State.setMem_gdtr (s : State) (m : Memory) : (s.setMem m).gdtr = s.gdtr := rfl
@[simp] theorem State.setMem_ldtr (s : State) (m : Memory) : (s.setMem m).ldtr = s.ldtr := rfl
@[simp] theorem State.setMem_mode (s : State) (m : Memory) : (s.setMem m).mode = s.mode := rfl
@[simp] theorem State.setMem_rspStatus (s : State) (m : Memory) : (s.setMem m).rspStatus = s.rspStatus := rfl
@[simp] theorem State.setMem_rspEntry (s : State) (m : Memory) : (s.setMem m).rspEntry = s.rspEntry := rfl
@[simp] theorem State.setMem_rspFields (s : State) (m : Memory) : (s.setMem m).rspFields = s.rspFields := rfl
@[simp] theorem State.setMem_rspReg (s : State) (m : Memory) : (s.setMem m).rspReg = s.rspReg := rfl
@[simp] theorem State.setMem_faultLog (s : State) (m : Memory) : (s.setMem m).faultLog = s.faultLog := rfl
@[simp] theorem State.setMem_mem (s : State) (m : Memory) : (s.setMem m).mem = m := rfl
@[simp] theorem State.setMem_pending (s : State) (m : Memory) : (s.setMem m).pending = s.pending := rfl

/-! ### `State.setPending` -/

@[simp] theorem State.setPending_params (s : State) (q : List CommandRecord) : (s.setPending q).params = s.params := rfl
@[simp] theorem State.setPending_gdtr (s : State) (q : List CommandRecord) : (s.setPending q).gdtr = s.gdtr := rfl
@[simp] theorem State.setPending_ldtr (s : State) (q : List CommandRecord) : (s.setPending q).ldtr = s.ldtr := rfl
@[simp] theorem State.setPending_mode (s : State) (q : List CommandRecord) : (s.setPending q).mode = s.mode := rfl
@[simp] theorem State.setPending_rspStatus (s : State) (q : List CommandRecord) : (s.setPending q).rspStatus = s.rspStatus := rfl
@[simp] theorem State.setPending_rspEntry (s : State) (q : List CommandRecord) : (s.setPending q).rspEntry = s.rspEntry := rfl
@[simp] theorem State.setPending_rspFields (s : State) (q : List CommandRecord) : (s.setPending q).rspFields = s.rspFields := rfl
@[simp] theorem State.setPending_rspReg (s : State) (q : List CommandRecord) : (s.setPending q).rspReg = s.rspReg := rfl
@[simp] theorem State.setPending_faultLog (s : State) (q : List CommandRecord) : (s.setPending q).faultLog = s.faultLog := rfl
@[simp] theorem State.setPending_mem (s : State) (q : List CommandRecord) : (s.setPending q).mem = s.mem := rfl
@[simp] theorem State.setPending_pending (s : State) (q : List CommandRecord) : (s.setPending q).pending = q := rfl

/-! ### Reset -/

@[simp] theorem State.resetWith_params (p : Config.Params) : (State.resetWith p).params = p := rfl
@[simp] theorem State.resetWith_gdtr (p : Config.Params) : (State.resetWith p).gdtr = p.gdtrReset := rfl
@[simp] theorem State.resetWith_ldtr (p : Config.Params) : (State.resetWith p).ldtr = p.ldtrReset := rfl
@[simp] theorem State.resetWith_mode (p : Config.Params) : (State.resetWith p).mode = .preExisting := rfl
@[simp] theorem State.resetWith_rspStatus (p : Config.Params) : (State.resetWith p).rspStatus = none := rfl
@[simp] theorem State.resetWith_rspEntry (p : Config.Params) : (State.resetWith p).rspEntry = none := rfl
@[simp] theorem State.resetWith_rspFields (p : Config.Params) : (State.resetWith p).rspFields = none := rfl
@[simp] theorem State.resetWith_rspReg (p : Config.Params) : (State.resetWith p).rspReg = none := rfl
@[simp] theorem State.resetWith_faultLog (p : Config.Params) : (State.resetWith p).faultLog = [] := rfl
@[simp] theorem State.resetWith_mem (p : Config.Params) : (State.resetWith p).mem = [] := rfl
@[simp] theorem State.resetWith_pending (p : Config.Params) : (State.resetWith p).pending = [] := rfl

/-! ### The outcomes of a command -/

@[simp] theorem finishOk_params (s : State) : (finishOk s).params = s.params := rfl
@[simp] theorem finishOk_gdtr (s : State) : (finishOk s).gdtr = s.gdtr := rfl
@[simp] theorem finishOk_ldtr (s : State) : (finishOk s).ldtr = s.ldtr := rfl
@[simp] theorem finishOk_mode (s : State) : (finishOk s).mode = s.mode := rfl
@[simp] theorem finishOk_rspStatus (s : State) : (finishOk s).rspStatus = some statusOk := rfl
@[simp] theorem finishOk_rspEntry (s : State) : (finishOk s).rspEntry = s.rspEntry := rfl
@[simp] theorem finishOk_rspFields (s : State) : (finishOk s).rspFields = s.rspFields := rfl
@[simp] theorem finishOk_rspReg (s : State) : (finishOk s).rspReg = s.rspReg := rfl
@[simp] theorem finishOk_faultLog (s : State) : (finishOk s).faultLog = s.faultLog := rfl
@[simp] theorem finishOk_mem (s : State) : (finishOk s).mem = s.mem := rfl
@[simp] theorem finishOk_pending (s : State) : (finishOk s).pending = s.pending := rfl

@[simp] theorem failInvalid_params (r : Reason) (s : State) : (failInvalid r s).params = s.params := rfl
@[simp] theorem failInvalid_gdtr (r : Reason) (s : State) : (failInvalid r s).gdtr = s.gdtr := rfl
@[simp] theorem failInvalid_ldtr (r : Reason) (s : State) : (failInvalid r s).ldtr = s.ldtr := rfl
@[simp] theorem failInvalid_mode (r : Reason) (s : State) : (failInvalid r s).mode = s.mode := rfl
@[simp] theorem failInvalid_rspStatus (r : Reason) (s : State) : (failInvalid r s).rspStatus = some (statusInvalid r) := rfl
@[simp] theorem failInvalid_rspEntry (r : Reason) (s : State) : (failInvalid r s).rspEntry = s.rspEntry := rfl
@[simp] theorem failInvalid_rspFields (r : Reason) (s : State) : (failInvalid r s).rspFields = s.rspFields := rfl
@[simp] theorem failInvalid_rspReg (r : Reason) (s : State) : (failInvalid r s).rspReg = s.rspReg := rfl
@[simp] theorem failInvalid_faultLog (r : Reason) (s : State) : (failInvalid r s).faultLog = s.faultLog := rfl
@[simp] theorem failInvalid_mem (r : Reason) (s : State) : (failInvalid r s).mem = s.mem := rfl
@[simp] theorem failInvalid_pending (r : Reason) (s : State) : (failInvalid r s).pending = s.pending := rfl

@[simp] theorem illegalCommand_params (s : State) : (illegalCommand s).params = s.params := rfl
@[simp] theorem illegalCommand_gdtr (s : State) : (illegalCommand s).gdtr = s.gdtr := rfl
@[simp] theorem illegalCommand_ldtr (s : State) : (illegalCommand s).ldtr = s.ldtr := rfl
@[simp] theorem illegalCommand_mode (s : State) : (illegalCommand s).mode = s.mode := rfl
@[simp] theorem illegalCommand_rspStatus (s : State) : (illegalCommand s).rspStatus = some statusIllegal := rfl
@[simp] theorem illegalCommand_rspEntry (s : State) : (illegalCommand s).rspEntry = s.rspEntry := rfl
@[simp] theorem illegalCommand_rspFields (s : State) : (illegalCommand s).rspFields = s.rspFields := rfl
@[simp] theorem illegalCommand_rspReg (s : State) : (illegalCommand s).rspReg = s.rspReg := rfl
@[simp] theorem illegalCommand_faultLog (s : State) : (illegalCommand s).faultLog = s.faultLog := rfl
@[simp] theorem illegalCommand_mem (s : State) : (illegalCommand s).mem = s.mem := rfl
@[simp] theorem illegalCommand_pending (s : State) : (illegalCommand s).pending = s.pending := rfl

@[simp] theorem raiseHardwareFault_params (op : BitVec 8) (cpl : BitVec 2) (s : State) : (raiseHardwareFault op cpl s).params = s.params := rfl
@[simp] theorem raiseHardwareFault_gdtr (op : BitVec 8) (cpl : BitVec 2) (s : State) : (raiseHardwareFault op cpl s).gdtr = s.gdtr := rfl
@[simp] theorem raiseHardwareFault_ldtr (op : BitVec 8) (cpl : BitVec 2) (s : State) : (raiseHardwareFault op cpl s).ldtr = s.ldtr := rfl
@[simp] theorem raiseHardwareFault_mode (op : BitVec 8) (cpl : BitVec 2) (s : State) : (raiseHardwareFault op cpl s).mode = s.mode := rfl
@[simp] theorem raiseHardwareFault_rspStatus (op : BitVec 8) (cpl : BitVec 2) (s : State) : (raiseHardwareFault op cpl s).rspStatus = s.rspStatus := rfl
@[simp] theorem raiseHardwareFault_rspEntry (op : BitVec 8) (cpl : BitVec 2) (s : State) : (raiseHardwareFault op cpl s).rspEntry = s.rspEntry := rfl
@[simp] theorem raiseHardwareFault_rspFields (op : BitVec 8) (cpl : BitVec 2) (s : State) : (raiseHardwareFault op cpl s).rspFields = s.rspFields := rfl
@[simp] theorem raiseHardwareFault_rspReg (op : BitVec 8) (cpl : BitVec 2) (s : State) : (raiseHardwareFault op cpl s).rspReg = s.rspReg := rfl
@[simp] theorem raiseHardwareFault_faultLog (op : BitVec 8) (cpl : BitVec 2) (s : State) : (raiseHardwareFault op cpl s).faultLog = s.faultLog ++ [⟨op, cpl, gpVector, 0⟩] := rfl
@[simp] theorem raiseHardwareFault_mem (op : BitVec 8) (cpl : BitVec 2) (s : State) : (raiseHardwareFault op cpl s).mem = s.mem := rfl
@[simp] theorem raiseHardwareFault_pending (op : BitVec 8) (cpl : BitVec 2) (s : State) : (raiseHardwareFault op cpl s).pending = s.pending := rfl

end Sys2Proof.Machine
end

