-- ==== Sys2Proof/Laws/Ops.lean ====
section
/-!
SUPPORT. What each shared operation can do, said once: a proof about a command cites these and unfolds none of them.
-/

namespace Sys2Proof.Machine

open Sys2Proof.Config

/-! ### The guards -/

theorem whenAdmitted_next {s t : State} {a n : Nat} {go : Result} :
    whenAdmitted s a n go = .next t ↔ admitted s.params a n = true ∧ go = .next t := by
  unfold whenAdmitted; split <;> simp_all

theorem whenAdmitted_pos {s : State} {a n : Nat} {go : Result} (h : admitted s.params a n = true) :
    whenAdmitted s a n go = go := if_pos h

/-- A command with an unadmitted access is stuck. -/
theorem whenAdmitted_neg {s : State} {a n : Nat} {go : Result} (h : admitted s.params a n = false) :
    whenAdmitted s a n go = .fault .unadmittedAccess := by
  simp [whenAdmitted, h]

theorem orFail_next {c : Option Reason} {s t : State} {go : Result} :
    orFail c s go = .next t ↔ (∃ r, c = some r ∧ t = failInvalid r s) ∨ (c = none ∧ go = .next t) := by
  cases c <;> simp [orFail, eq_comm]

@[simp] theorem orFail_some (r : Reason) (s : State) (go : Result) : orFail (some r) s go = .next (failInvalid r s) :=
  rfl
@[simp] theorem orFail_none (s : State) (go : Result) : orFail none s go = go := rfl

theorem unlessBaseRefused_of_refused {op : BitVec 8} {cpl : BitVec 2} {b : Addr} {s go : State}
    (h : baseRefused s.params b = true) : unlessBaseRefused op cpl b s go = raiseHardwareFault op cpl s := if_pos h

theorem unlessBaseRefused_of_accepted {op : BitVec 8} {cpl : BitVec 2} {b : Addr} {s go : State}
    (h : baseRefused s.params b = false) : unlessBaseRefused op cpl b s go = go := by
  simp [unlessBaseRefused, h]

theorem privOk_iff {cpl : BitVec 2} : privOk cpl = true ↔ cpl = 0 := by simp [privOk]

/-! ### The checks -/

theorem checkSize_none {k : Stride} {n : Nat} :
    checkSize k n = none ↔ 0 < n ∧ tableLen k n ≤ tableMaxBytes := by
  have hb : 0 < k.bytes := by cases k <;> decide
  have hlen : 0 < n → 0 < tableLen k n := fun h => Nat.mul_pos h hb
  unfold checkSize tableLimit tableMaxBytes
  by_cases h0 : n = 0
  · simp [h0]
  · have := hlen (by omega)
    by_cases h1 : 0xFFFF < tableLen k n - 1
    · simp [h0, h1]; omega
    · simp [h0, h1]; omega

theorem checkFields_none {f : FieldRecord} :
    checkFields f = none ↔ f.limit.toNat ≤ limitFieldMax ∧ f.base.toNat ≤ baseFieldMax ∧ f.rsv = 0 := by
  unfold checkFields
  by_cases h1 : limitFieldMax < f.limit.toNat
  · simp [h1]
  · by_cases h2 : baseFieldMax < f.base.toNat
    · simp [h1, h2]
    · by_cases h3 : f.rsv = 0
      · simp [h1, h2, h3, Nat.not_lt.1 h1, Nat.not_lt.1 h2]
      · simp only [h1, h2, if_false, ite_not]
        rw [if_neg h3]
        exact iff_of_false (by simp) fun h => h3 h.2.2

theorem anyReservedSet_iff {k : Stride} {m : Memory} {a c : Nat} :
    anyReservedSet k m a c = true ↔ ∃ i, 1 ≤ i ∧ i ≤ c ∧ entryReservedSet k m (entryAddr k a i) = true := by
  induction c with
  | zero => simp [anyReservedSet]
  | succ c ih =>
    simp only [anyReservedSet, Bool.or_eq_true, ih]
    constructor
    · rintro (⟨i, h1, h2, h3⟩ | h)
      · exact ⟨i, h1, by omega, h3⟩
      · exact ⟨c + 1, by omega, le_refl _, h⟩
    · rintro ⟨i, h1, h2, h3⟩
      rcases Nat.lt_or_ge c i with h | h
      · exact .inr (by rwa [show c + 1 = i by omega])
      · exact .inl ⟨i, h1, h, h3⟩

theorem entryImage_congr {k : Stride} {m m' : Memory} {a : Nat}
    (h : ∀ j < k.bytes, readByte m (a + j) = readByte m' (a + j)) : entryImage k m a = entryImage k m' a := by
  rw [entryImage, entryImage, memRead_congr h]

/-- The validation pass sees only the table's bytes. -/
theorem checkTable_congr {k : Stride} {m m' : Memory} {a n : Nat} (hn : 0 < n)
    (h : ∀ j < tableLen k n, readByte m (a + j) = readByte m' (a + j)) : checkTable k m a n = checkTable k m' a n := by
  have hlen : tableLen k n = k.bytes + (n - 1) * k.bytes := by
    obtain ⟨c, rfl⟩ : ∃ c, n = c + 1 := ⟨n - 1, by omega⟩
    simp [tableLen, Nat.add_mul]; omega
  have h0 : memRead m a k.bytes = memRead m' a k.bytes := memRead_congr fun j hj => h j (by omega)
  have h1 : ∀ i, 1 ≤ i → i ≤ n - 1 →
      entryReservedSet k m (entryAddr k a i) = entryReservedSet k m' (entryAddr k a i) := by
    intro i hi hin
    have : entryImage k m (entryAddr k a i) = entryImage k m' (entryAddr k a i) := by
      refine entryImage_congr fun j hj => ?_
      have hb : i * k.bytes + j < tableLen k n := by
        have := Nat.mul_le_mul_right k.bytes hin
        omega
      simpa [entryAddr, Nat.add_assoc] using h (i * k.bytes + j) hb
    simp [entryReservedSet, this]
  have h2 : anyReservedSet k m a (n - 1) = anyReservedSet k m' a (n - 1) := by
    rw [Bool.eq_iff_iff, anyReservedSet_iff, anyReservedSet_iff]
    constructor
    · rintro ⟨i, a1, a2, a3⟩; exact ⟨i, a1, a2, h1 i a1 a2 ▸ a3⟩
    · rintro ⟨i, a1, a2, a3⟩; exact ⟨i, a1, a2, (h1 i a1 a2).symm ▸ a3⟩
  rw [checkTable, checkTable, h0, h2]

/-! ### Building a table -/

/-- What the copy of entries 1 to `c` leaves in every byte. -/
theorem readByte_copyEntries (k : Stride) (src m : Memory) (a0 a1 c x : Nat) :
    readByte (copyEntries k src a0 a1 c m) x =
      if a0 + k.bytes ≤ x ∧ x < a0 + k.bytes + c * k.bytes then readByte src (a1 + (x - a0)) else readByte m x := by
  induction c with
  | zero => rw [copyEntries, if_neg (by omega)]
  | succ c ih =>
    have hs : (c + 1) * k.bytes = c * k.bytes + k.bytes := Nat.succ_mul _ _
    rw [copyEntries, readByte_memWrite]
    by_cases h : entryAddr k a0 (c + 1) ≤ x ∧ x < entryAddr k a0 (c + 1) + k.bytes
    · rw [if_pos h]
      simp only [entryAddr] at h ⊢
      rw [memRead_byte _ _ _ _ (by omega), if_pos (by omega)]
      congr 1; omega
    · rw [if_neg h, ih]
      simp only [entryAddr] at h
      by_cases h2 : a0 + k.bytes ≤ x ∧ x < a0 + k.bytes + c * k.bytes
      · rw [if_pos h2, if_pos (by omega)]
      · rw [if_neg h2, if_neg (by omega)]

theorem copyEntries_wf {k : Stride} {src m : Memory} {a0 a1 c : Nat} (hm : Memory.wf m = true)
    (h : a0 + k.bytes + c * k.bytes ≤ addrSpaceSize) : Memory.wf (copyEntries k src a0 a1 c m) = true := by
  induction c with
  | zero => exact hm
  | succ c ih =>
    have hs : (c + 1) * k.bytes = c * k.bytes + k.bytes := Nat.succ_mul _ _
    exact memWrite_wf (ih (by omega)) (by simp only [entryAddr]; omega)

theorem tableLen_split (k : Stride) {n : Nat} (hn : 0 < n) :
    tableLen k n = k.bytes + (n - 1) * k.bytes := by
  obtain ⟨c, rfl⟩ : ∃ c, n = c + 1 := ⟨n - 1, by omega⟩
  simp [tableLen, Nat.add_mul]; omega

/-- What TBUILD leaves in every byte: zeros in entry 0, the source's bytes in the other entries, the rest as
before. -/
theorem readByte_builtTable {a0 a1 : Addr} {n : BitVec 32} {s : State} (hn : 0 < n.toNat) (x : Nat) :
    readByte (builtTable a0 a1 n s) x =
      if a0.toNat ≤ x ∧ x < a0.toNat + s.params.stride.bytes then 0
      else if a0.toNat + s.params.stride.bytes ≤ x ∧ x < a0.toNat + tableLen s.params.stride n.toNat then
        readByte s.mem (a1.toNat + (x - a0.toNat))
      else readByte s.mem x := by
  have hl := tableLen_split s.params.stride hn
  rw [builtTable, readByte_copyEntries, readByte_memWrite]
  by_cases h1 : a0.toNat ≤ x ∧ x < a0.toNat + s.params.stride.bytes
  · rw [if_pos h1, if_neg (by omega), if_pos h1]; simp
  · rw [if_neg h1, if_neg h1]
    by_cases h2 : a0.toNat + s.params.stride.bytes ≤ x ∧ x < a0.toNat + tableLen s.params.stride n.toNat
    · rw [if_pos h2, if_pos (by omega)]
    · rw [if_neg h2, if_neg (by omega)]

theorem builtTable_wf {a0 a1 : Addr} {n : BitVec 32} {s : State} (hn : 0 < n.toNat) (hm : Memory.wf s.mem = true)
    (h : a0.toNat + tableLen s.params.stride n.toNat ≤ addrSpaceSize) : Memory.wf (builtTable a0 a1 n s) = true := by
  have hl := tableLen_split s.params.stride hn
  exact copyEntries_wf (memWrite_wf hm (by omega)) (by omega)

/-! ### The bodies commands share -/

/-- What ENCODE and ENCSEG can do. -/
theorem storeEntry_cases {a0 : Addr} {f : FieldRecord} {s t : State} (h : storeEntry a0 f s = .next t) :
    (∃ r, checkFields f = some r ∧ t = failInvalid r s) ∨
      (checkFields f = none ∧ admitted s.params a0.toNat s.params.stride.bytes = true ∧
        t = finishOk ((s.setMem (memWrite s.mem a0.toNat s.params.stride.bytes
          (packEntry s.params.stride f).toNat)).setEntry (packEntry s.params.stride f))) := by
  rcases orFail_next.1 h with ⟨r, h1, h2⟩ | ⟨h1, h2⟩
  · exact .inl ⟨r, h1, h2⟩
  · obtain ⟨h3, h4⟩ := whenAdmitted_next.1 h2
    exact .inr ⟨h1, h3, (Host.Outcome.next.inj h4).symm⟩

/-- What DECODE and CHKENT can do. -/
theorem withEntry_cases {a0 : Addr} {s t : State} {done : BitVec 96 → State} (h : withEntry a0 s done = .next t) :
    admitted s.params a0.toNat s.params.stride.bytes = true ∧
      ((entryReservedSet s.params.stride s.mem a0.toNat = true ∧ t = failInvalid .reservedSet s) ∨
        (entryReservedSet s.params.stride s.mem a0.toNat = false ∧
          t = finishOk (done (entryImage s.params.stride s.mem a0.toNat)))) := by
  obtain ⟨h1, h2⟩ := whenAdmitted_next.1 h
  refine ⟨h1, ?_⟩
  have h3 := (Host.Outcome.next.inj h2).symm
  split at h3
  · next hr => exact .inl ⟨hr, h3⟩
  · next hr => exact .inr ⟨by simpa using hr, h3⟩

/-- What DECODE can do. -/
theorem execDecode_cases {a0 : Addr} {s t : State} (h : execDecode a0 s = .next t) :
    admitted s.params a0.toNat s.params.stride.bytes = true ∧
      ((entryReservedSet s.params.stride s.mem a0.toNat = true ∧ t = failInvalid .reservedSet s) ∨
        (entryReservedSet s.params.stride s.mem a0.toNat = false ∧
          t = finishOk (s.setFields (unpackEntry s.params.stride (entryImage s.params.stride s.mem a0.toNat))))) :=
  withEntry_cases (done := fun x => s.setFields (unpackEntry s.params.stride x)) h

/-- What CHKENT can do. -/
theorem execChkent_cases {a0 : Addr} {s t : State} (h : execChkent a0 s = .next t) :
    admitted s.params a0.toNat s.params.stride.bytes = true ∧
      ((entryReservedSet s.params.stride s.mem a0.toNat = true ∧ t = failInvalid .reservedSet s) ∨
        (entryReservedSet s.params.stride s.mem a0.toNat = false ∧ t = finishOk s)) :=
  withEntry_cases (done := fun _ => s) h

/-- What TCHECK and the validation of LOAD can do. -/
theorem withValidTable_cases {a0 : Addr} {n : BitVec 32} {s t go : State} (h : withValidTable a0 n s go = .next t) :
    (∃ r, checkSize s.params.stride n.toNat = some r ∧ t = failInvalid r s) ∨
      (checkSize s.params.stride n.toNat = none ∧
        admitted s.params a0.toNat (tableLen s.params.stride n.toNat) = true ∧
        ((∃ r, checkTable s.params.stride s.mem a0.toNat n.toNat = some r ∧ t = failInvalid r s) ∨
          (checkTable s.params.stride s.mem a0.toNat n.toNat = none ∧ t = go))) := by
  rcases orFail_next.1 h with ⟨r, h1, h2⟩ | ⟨h1, h2⟩
  · exact .inl ⟨r, h1, h2⟩
  · obtain ⟨h3, h4⟩ := whenAdmitted_next.1 h2
    refine .inr ⟨h1, h3, ?_⟩
    have h5 := (Host.Outcome.next.inj h4).symm
    split at h5
    · next r hr => exact .inl ⟨r, hr, h5⟩
    · next hr => exact .inr ⟨hr, h5⟩

/-- What TBUILD can do. -/
theorem execTbuild_cases {a0 a1 : Addr} {n : BitVec 32} {s t : State} (h : execTbuild a0 a1 n s = .next t) :
    (∃ r, checkSize s.params.stride n.toNat = some r ∧ t = failInvalid r s) ∨
      (checkSize s.params.stride n.toNat = none ∧
        ((anyReservedSet s.params.stride s.mem a1.toNat (n.toNat - 1) = true ∧ t = failInvalid .reservedSet s) ∨
          (anyReservedSet s.params.stride s.mem a1.toNat (n.toNat - 1) = false ∧
            admitted s.params a0.toNat (tableLen s.params.stride n.toNat) = true ∧
            t = finishOk (s.setMem (builtTable a0 a1 n s))))) := by
  rcases orFail_next.1 h with ⟨r, h1, h2⟩ | ⟨h1, h2⟩
  · exact .inl ⟨r, h1, h2⟩
  · obtain ⟨-, h4⟩ := whenAdmitted_next.1 h2
    refine .inr ⟨h1, ?_⟩
    split at h4
    · next hr => exact .inl ⟨hr, (Host.Outcome.next.inj h4).symm⟩
    · next hr =>
      obtain ⟨h5, h6⟩ := whenAdmitted_next.1 h4
      exact .inr ⟨by simpa using hr, h5, (Host.Outcome.next.inj h6).symm⟩

/-- What TVIEW can do. -/
theorem execTview_cases {a0 : Addr} {n : BitVec 32} {s t : State} (h : execTview a0 n s = .next t) :
    (∃ r, checkSize s.params.stride n.toNat = some r ∧ t = failInvalid r s) ∨
      (checkSize s.params.stride n.toNat = none ∧
        t = finishOk (s.setReg (packReg (tableReg s.params.stride a0 n.toNat)))) := by
  rcases orFail_next.1 h with ⟨r, h1, h2⟩ | ⟨h1, h2⟩
  · exact .inl ⟨r, h1, h2⟩
  · exact .inr ⟨h1, (Host.Outcome.next.inj h2).symm⟩

/-- What INSTALL can do. -/
theorem execInstall_cases {a0 : Addr} {cpl : BitVec 2} {s t : State} (h : execInstall a0 cpl s = .next t) :
    (cpl ≠ 0 ∧ t = raiseHardwareFault opInstall cpl s) ∨
      (cpl = 0 ∧ admitted s.params a0.toNat regImageBytes = true ∧
        ((baseRefused s.params (unpackReg (regImage s.mem a0.toNat)).base = true ∧
            t = raiseHardwareFault opInstall cpl s) ∨
          (baseRefused s.params (unpackReg (regImage s.mem a0.toNat)).base = false ∧
            t = finishOk ((s.setGdtr (unpackReg (regImage s.mem a0.toNat))).setMode
              (modeOfInstall s.params (unpackReg (regImage s.mem a0.toNat))))))) := by
  unfold execInstall at h
  split at h
  · next hp =>
    obtain ⟨h1, h2⟩ := whenAdmitted_next.1 h
    refine .inr ⟨privOk_iff.1 hp, h1, ?_⟩
    have h3 := (Host.Outcome.next.inj h2).symm
    unfold unlessBaseRefused at h3
    split at h3
    · next hb => exact .inl ⟨hb, h3⟩
    · next hb => exact .inr ⟨by simpa using hb, h3⟩
  · next hp => exact .inl ⟨fun hc => hp (privOk_iff.2 hc), (Host.Outcome.next.inj h).symm⟩

/-- What CAPTURE and CAPLDT can do. -/
theorem captureReg_cases {op : BitVec 8} {v : RegValue} {a0 : Addr} {cpl : BitVec 2} {s t : State}
    (h : captureReg op v a0 cpl s = .next t) :
    (captureRefused s.params cpl = true ∧ t = raiseHardwareFault op cpl s) ∨
      (captureRefused s.params cpl = false ∧ admitted s.params a0.toNat regImageBytes = true ∧
        t = finishOk ((s.setMem (memWrite s.mem a0.toNat regImageBytes (packReg v).toNat)).setReg (packReg v))) := by
  unfold captureReg at h
  split at h
  · next hc => exact .inl ⟨hc, (Host.Outcome.next.inj h).symm⟩
  · next hc =>
    obtain ⟨h1, h2⟩ := whenAdmitted_next.1 h
    exact .inr ⟨by simpa using hc, h1, (Host.Outcome.next.inj h2).symm⟩

/-- What LOAD can do once its table has passed the validation. -/
theorem execLoad_cases {a0 : Addr} {n : BitVec 32} {cpl : BitVec 2} {s t : State} (h : execLoad a0 n cpl s = .next t) :
    (∃ r, t = failInvalid r s) ∨
      (checkSize s.params.stride n.toNat = none ∧
        admitted s.params a0.toNat (tableLen s.params.stride n.toNat) = true ∧
        checkTable s.params.stride s.mem a0.toNat n.toNat = none ∧
        (((cpl ≠ 0 ∨ baseRefused s.params a0 = true) ∧ t = raiseHardwareFault opLoad cpl s) ∨
          (cpl = 0 ∧ baseRefused s.params a0 = false ∧
            t = finishOk (((s.setGdtr (tableReg s.params.stride a0 n.toNat)).setMode .flatInstalled).setReg
              (packReg (tableReg s.params.stride a0 n.toNat)))))) := by
  rcases withValidTable_cases h with ⟨r, -, h2⟩ | ⟨h1, h2, h3⟩
  · exact .inl ⟨r, h2⟩
  · rcases h3 with ⟨r, -, h4⟩ | ⟨h3, h4⟩
    · exact .inl ⟨r, h4⟩
    · refine .inr ⟨h1, h2, h3, ?_⟩
      split at h4
      · next hp =>
        unfold unlessBaseRefused at h4
        split at h4
        · next hb => exact .inl ⟨.inr hb, h4⟩
        · next hb => exact .inr ⟨privOk_iff.1 hp, by simpa [tableReg] using hb, h4⟩
      · next hp => exact .inl ⟨.inl fun hc => hp (privOk_iff.2 hc), h4⟩

/-! ### The next command -/

theorem nextCommand_cons {s : State} {r : CommandRecord} {rest : List CommandRecord} (h : s.pending = r :: rest) :
    nextCommand s = some (r, s.setPending rest) := by
  simp [nextCommand, h]

theorem nextCommand_nil {s : State} (h : s.pending = []) : nextCommand s = none := by
  simp [nextCommand, h]

end Sys2Proof.Machine
end

