-- ==== Sys2Proof/Laws/PerInstr.lean ====
section
/-!
SUPPORT. Statements about every instruction, one lemma per constructor.

`EncodesWellFormed`: the record of a command has an assigned opcode and zero in every field the command does not use
(30_encoding.md R66, R71).
-/

namespace Sys2Proof.Laws

/-- The record of the command is well-formed. -/
def EncodesWellFormed.Statement (i : Instr) : Prop := (encode i).wellFormed = true

theorem EncodesWellFormed.encode (a0 : Addr) (f : FieldRecord) :
    EncodesWellFormed.Statement (.encode a0 f) := by rfl
theorem EncodesWellFormed.encseg (a0 : Addr) (sp : SegParams) :
    EncodesWellFormed.Statement (.encseg a0 sp) := by rfl
theorem EncodesWellFormed.decode (a0 : Addr) : EncodesWellFormed.Statement (.decode a0) := by rfl
theorem EncodesWellFormed.chkent (a0 : Addr) : EncodesWellFormed.Statement (.chkent a0) := by rfl
theorem EncodesWellFormed.tbuild (a0 a1 : Addr) (n : BitVec 32) :
    EncodesWellFormed.Statement (.tbuild a0 a1 n) := by rfl
theorem EncodesWellFormed.tcheck (a0 : Addr) (n : BitVec 32) :
    EncodesWellFormed.Statement (.tcheck a0 n) := by rfl
theorem EncodesWellFormed.tview (a0 : Addr) (n : BitVec 32) :
    EncodesWellFormed.Statement (.tview a0 n) := by rfl
theorem EncodesWellFormed.install (a0 : Addr) (cpl : BitVec 2) :
    EncodesWellFormed.Statement (.install a0 cpl) := by rfl
theorem EncodesWellFormed.capture (a0 : Addr) (cpl : BitVec 2) :
    EncodesWellFormed.Statement (.capture a0 cpl) := by rfl
theorem EncodesWellFormed.capldt (a0 : Addr) (cpl : BitVec 2) :
    EncodesWellFormed.Statement (.capldt a0 cpl) := by rfl
theorem EncodesWellFormed.load (a0 : Addr) (n : BitVec 32) (cpl : BitVec 2) :
    EncodesWellFormed.Statement (.load a0 n cpl) := by rfl

end Sys2Proof.Laws
end

