-- ==== Sys2Proof/Machine/Assembler.lean ====
section
/-!
DEFINITION. The assembler: one line of text to one command record (30_encoding.md R71), with the pseudo-instructions
of R72.

R71 gives the operands' order and the number forms. What it leaves open of the text's lexical form is the model's
(log 17).
-/

namespace Sys2Proof.Machine

/-- The eleven commands and the five pseudo-instructions (30_encoding.md R71, R72). -/
inductive Mnemonic where
  | encode | encseg | decode | chkent | tbuild | tcheck | tview | install | capture | capldt | load
  | flatseg | flatcode64 | nullent | save | restore
deriving DecidableEq, Repr

/-- An operand of a line: a number, or one of the words `code` and `data`. -/
inductive Operand where
  | num (v : Nat)
  | code
  | data
deriving DecidableEq, Repr

/-- One line, read: a mnemonic, its operands, and the ring of `@K` (0 where there is none, 30_encoding.md R71). -/
structure AsmLine where
  mnemonic : Mnemonic
  operands : List Operand
  cpl      : Nat
deriving DecidableEq, Repr

/-! ### From a line to a record -/

/-- A number as a field of `w` bits, if it fits. -/
def fieldOf (w v : Nat) : Option (BitVec w) := if numberFits w v then some (BitVec.ofNat w v) else none

/-- The value of the `kind` field (30_encoding.md R62), for an operand that is a kind. -/
def kindOf : Operand → Option (BitVec 1)
  | .num _ => none
  | .code => some 1
  | .data => some 0

/-- The numbers of an operand list with no kind in it. -/
def numbersOf : List Operand → Option (List Nat)
  | [] => some []
  | .num v :: rest => (numbersOf rest).map (v :: ·)
  | .code :: _ => none
  | .data :: _ => none

/-- The field record of ENCODE's operands after `a0` (30_encoding.md R71); `rsv` defaults to 0. -/
def fieldRecordOf : List Nat → Option FieldRecord
  | [base, limit, g, db, l, avl, p, dpl, s, e, dc, rw, a] =>
    fieldRecordOf.build base limit g db l avl p dpl s e dc rw a 0
  | [base, limit, g, db, l, avl, p, dpl, s, e, dc, rw, a, rsv] =>
    fieldRecordOf.build base limit g db l avl p dpl s e dc rw a rsv
  | _ => none
where
  /-- Each number in its field, if every one fits. -/
  build (base limit g db l avl p dpl s e dc rw a rsv : Nat) : Option FieldRecord := do
    let base ← fieldOf 64 base
    let limit ← fieldOf 32 limit
    let g ← fieldOf 1 g
    let db ← fieldOf 1 db
    let l ← fieldOf 1 l
    let avl ← fieldOf 1 avl
    let p ← fieldOf 1 p
    let dpl ← fieldOf 2 dpl
    let s ← fieldOf 1 s
    let e ← fieldOf 1 e
    let dc ← fieldOf 1 dc
    let rw ← fieldOf 1 rw
    let a ← fieldOf 1 a
    let rsv ← fieldOf 32 rsv
    return { base, limit, g, db, l, avl, p, dpl, s, e, dc, rw, a, rsv }

/-- The command of ENCSEG's operands (30_encoding.md R71). -/
def encsegOf (a0 base limit g db l dpl : Nat) (kind : Operand) (p : Nat) : Option Instr := do
  let a0 ← fieldOf 64 a0
  let base ← fieldOf 64 base
  let limit ← fieldOf 32 limit
  let g ← fieldOf 1 g
  let db ← fieldOf 1 db
  let l ← fieldOf 1 l
  let dpl ← fieldOf 2 dpl
  let kind ← kindOf kind
  let p ← fieldOf 1 p
  return .encseg a0 { base, limit, g, db, l, dpl, kind, p }

/-- A command of one address. -/
def addrCommand (mk : Addr → Instr) (a0 : Nat) : Option Instr := (fieldOf 64 a0).map mk

/-- A command of an address and an entry count. -/
def countCommand (mk : Addr → BitVec 32 → Instr) (a0 n : Nat) : Option Instr := do
  let a0 ← fieldOf 64 a0
  let n ← fieldOf 32 n
  return mk a0 n

/-- The command of a line issued at ring `cpl`: R71's operand orders and R72's expansions. -/
def commandOf (cpl : BitVec 2) : Mnemonic → List Operand → Option Instr
  | .encode, .num a0 :: rest => do
    let a0 ← fieldOf 64 a0
    let ns ← numbersOf rest
    let f ← fieldRecordOf ns
    return .encode a0 f
  | .encseg, [.num a0, .num base, .num limit, .num g, .num db, .num l, .num dpl, kind, .num p] =>
    encsegOf a0 base limit g db l dpl kind p
  | .decode, [.num a0] => addrCommand .decode a0
  | .chkent, [.num a0] => addrCommand .chkent a0
  | .tbuild, [.num a0, .num a1, .num n] => (fieldOf 64 a1).bind fun a1 => countCommand (.tbuild · a1 ·) a0 n
  | .tcheck, [.num a0, .num n] => countCommand .tcheck a0 n
  | .tview, [.num a0, .num n] => countCommand .tview a0 n
  | .install, [.num a0] => addrCommand (.install · cpl) a0
  | .capture, [.num a0] => addrCommand (.capture · cpl) a0
  | .capldt, [.num a0] => addrCommand (.capldt · cpl) a0
  | .load, [.num a0, .num n] => countCommand (.load · · cpl) a0 n
  | .flatseg, [.num a0, kind, .num dpl] => encsegOf a0 0 0xFFFFF 1 1 0 dpl kind 1
  | .flatcode64, [.num a0, .num dpl] => encsegOf a0 0 0xFFFFF 1 0 1 dpl .code 1
  | .nullent, [.num a0] => addrCommand (.encode · FieldRecord.zero) a0
  | .save, [.num a0] => addrCommand (.capture · cpl) a0
  | .restore, [.num a0] => addrCommand (.install · cpl) a0
  | _, _ => none

/-- The record of a line: unused fields zero, and `cpl` the line's ring for every command (30_encoding.md R71). -/
def assembleLine (x : AsmLine) : Option CommandRecord := do
  let cpl ← fieldOf 2 x.cpl
  let i ← commandOf cpl x.mnemonic x.operands
  return { encode i with cpl := cpl }

/-! ### From text to a line -/

/-- What a line's characters form. -/
inductive Token where
  | word (w : List Char)
  | comma
  | at
deriving DecidableEq, Repr

/-- The characters of names and numbers. -/
def wordChar (c : Char) : Bool :=
  (decide ('0' ≤ c) && decide (c ≤ '9')) || (decide ('a' ≤ c) && decide (c ≤ 'z')) ||
    (decide ('A' ≤ c) && decide (c ≤ 'Z'))

/-- Put a finished word, held last character first, before some tokens. -/
def flushWord (w : List Char) (ts : List Token) : List Token :=
  match w with
  | [] => ts
  | _ :: _ => .word w.reverse :: ts

/-- The tokens of a line; `;` starts a comment (30_encoding.md R71). `w` is the word under way, last character
first. -/
def tokensFrom (w : List Char) : List Char → Option (List Token)
  | [] => some (flushWord w [])
  | c :: cs =>
    if c = ';' then some (flushWord w [])
    else if wordChar c then tokensFrom (c :: w) cs
    else if c = ' ' ∨ c = '\t' then (tokensFrom [] cs).map (flushWord w)
    else if c = ',' then (tokensFrom [] cs).map fun ts => flushWord w (.comma :: ts)
    else if c = '@' then (tokensFrom [] cs).map fun ts => flushWord w (.at :: ts)
    else none

/-- The value of a digit in a base. -/
def digitOf (base : Nat) (c : Char) : Option Nat :=
  let v :=
    if '0' ≤ c ∧ c ≤ '9' then c.toNat - '0'.toNat
    else if 'a' ≤ c ∧ c ≤ 'f' then c.toNat - 'a'.toNat + 10
    else if 'A' ≤ c ∧ c ≤ 'F' then c.toNat - 'A'.toNat + 10
    else 16
  if v < base then some v else none

/-- The value of digits in a base, after the value `acc` of those before them. -/
def digitsValue (base acc : Nat) : List Char → Option Nat
  | [] => some acc
  | c :: cs => (digitOf base c).bind fun d => digitsValue base (base * acc + d) cs

/-- A number, decimal or `0x` hexadecimal (30_encoding.md R71). -/
def numberOf : List Char → Option Nat
  | [] => none
  | '0' :: 'x' :: c :: cs => digitsValue 16 0 (c :: cs)
  | c :: cs => digitsValue 10 0 (c :: cs)

/-- An operand word. -/
def operandOf (w : List Char) : Option Operand :=
  if w = ['c', 'o', 'd', 'e'] then some .code
  else if w = ['d', 'a', 't', 'a'] then some .data
  else (numberOf w).map .num

/-- A mnemonic word, in capitals. -/
def mnemonicOf (w : List Char) : Option Mnemonic :=
  if w = ['E', 'N', 'C', 'O', 'D', 'E'] then some .encode
  else if w = ['E', 'N', 'C', 'S', 'E', 'G'] then some .encseg
  else if w = ['D', 'E', 'C', 'O', 'D', 'E'] then some .decode
  else if w = ['C', 'H', 'K', 'E', 'N', 'T'] then some .chkent
  else if w = ['T', 'B', 'U', 'I', 'L', 'D'] then some .tbuild
  else if w = ['T', 'C', 'H', 'E', 'C', 'K'] then some .tcheck
  else if w = ['T', 'V', 'I', 'E', 'W'] then some .tview
  else if w = ['I', 'N', 'S', 'T', 'A', 'L', 'L'] then some .install
  else if w = ['C', 'A', 'P', 'T', 'U', 'R', 'E'] then some .capture
  else if w = ['C', 'A', 'P', 'L', 'D', 'T'] then some .capldt
  else if w = ['L', 'O', 'A', 'D'] then some .load
  else if w = ['F', 'L', 'A', 'T', 'S', 'E', 'G'] then some .flatseg
  else if w = ['F', 'L', 'A', 'T', 'C', 'O', 'D', 'E', '6', '4'] then some .flatcode64
  else if w = ['N', 'U', 'L', 'L', 'E', 'N', 'T'] then some .nullent
  else if w = ['S', 'A', 'V', 'E'] then some .save
  else if w = ['R', 'E', 'S', 'T', 'O', 'R', 'E'] then some .restore
  else none

/-- Operands with a comma between each two, then `@K` or nothing: the operands and the ring. -/
def operandsOf : List Token → Option (List Operand × Nat)
  | [.word w] => (operandOf w).map fun o => ([o], 0)
  | [.word w, .at, .word k] =>
    (operandOf w).bind fun o => (numberOf k).map fun cpl => ([o], cpl)
  | .word w :: .comma :: ts =>
    (operandOf w).bind fun o => (operandsOf ts).map fun r => (o :: r.1, r.2)
  | _ => none

/-- A line of text that holds a command. -/
def parseLine (cs : List Char) : Option AsmLine :=
  match tokensFrom [] cs with
  | some (.word m :: ts) => do
    let m ← mnemonicOf m
    let r ← operandsOf ts
    return { mnemonic := m, operands := r.1, cpl := r.2 }
  | _ => none

/-- The record of a line of text (30_encoding.md R71, R72); none where it is no such line. -/
def assemble (line : String) : Option CommandRecord := (parseLine line.toList).bind assembleLine

end Sys2Proof.Machine
end

