-- ==== Sys2Proof/Safety.lean ====
section
/-!
DEFINITION. What a safe run is, in the terms statements use: the fault-free premise, the hazards software must avoid,
the processor's view of a table, and the states the block can be in.

Nothing here changes what a command does: the block enforces none of the hazards (70_reset_and_hazards.md R163).
-/

namespace Sys2Proof.Safety

open Sys2Proof.Config Sys2Proof.Machine

/-- No HardwareFault has been raised: the premise of a claim that a program ran fault-free (10_state.md R26). -/
abbrev FaultFree (s : State) : Prop := s.faultLog = []

/-! ### Hazards (70_reset_and_hazards.md R162, R163) -/

/-- The address is a byte of the table a register value locates. -/
abbrev InTable (v : RegValue) (a : Nat) : Prop := v.base.toNat ≤ a ∧ a ≤ v.base.toNat + v.limit.toNat

/-- Construct before install (70_reset_and_hazards.md R162): every byte of the table that the value locates has been
written. -/
def Constructed (m : Memory) (v : RegValue) : Prop := ∀ a, InTable v a → (Memory.get? m a).isSome

/-- A write of `n` bytes from `a` would change the active table: the hazard of 70_reset_and_hazards.md R163. -/
def OverlapsActive (s : State) (a n : Nat) : Prop := ∃ x, InTable s.gdtr x ∧ a ≤ x ∧ x < a + n

/-- The bytes of the table `v` locates are the same in two memories: the premise R163 asks of a claim about selector
resolution. -/
def SameTable (v : RegValue) (m m' : Memory) : Prop := ∀ a, InTable v a → readByte m a = readByte m' a

/-! ### The processor's view (10_state.md R30; general knowledge of the spec, log 14) -/

/-- What a selector lookup gives. -/
inductive Lookup where
  /-- index 0 of the global table: the null descriptor -/
  | null
  /-- the 8 bytes the processor reads -/
  | descriptor (w : BitVec 64)
  /-- the index is past the limit: a general-protection fault of the processor, not of this block -/
  | gpFault
  /-- table indicator 1: the local table, for which R30 gives no lookup -/
  | localTable
deriving DecidableEq, Repr

/-- `Observe` (10_state.md R30): the outcome of a selector's lookup. The processor steps by 8 bytes whatever the
block's stride (70_reset_and_hazards.md R165). -/
def observe (v : RegValue) (m : Memory) (sel : BitVec 16) : Lookup :=
  let index := (sel.extractLsb' 3 13).toNat
  if sel.extractLsb' 2 1 = 1 then .localTable
  else if index = 0 then .null
  else if 8 * index + 7 ≤ v.limit.toNat then .descriptor (BitVec.ofNat 64 (memRead m (v.base.toNat + 8 * index) 8))
  else .gpFault

/-! ### The spec's own words for what memory holds

These say in bytes what the meanings compute as wide values. -/

/-- The bytes of an entry from address `a` up are those of the field record `f` (40_entry_codec.md R80). -/
structure EntryBytes (k : Stride) (m : Memory) (a : Nat) (f : FieldRecord) : Prop where
  byte0 : readByte m a = f.limit.extractLsb' 0 8
  byte1 : readByte m (a + 1) = f.limit.extractLsb' 8 8
  byte2 : readByte m (a + 2) = f.base.extractLsb' 0 8
  byte3 : readByte m (a + 3) = f.base.extractLsb' 8 8
  byte4 : readByte m (a + 4) = f.base.extractLsb' 16 8
  /-- the access byte: P, DPL, S, E, DC, RW, A from bit 7 down -/
  byte5 : readByte m (a + 5) = f.p ++ f.dpl ++ f.s ++ f.e ++ f.dc ++ f.rw ++ f.a
  /-- the granularity byte: G, DB, L, AVL, limit 19..16 from bit 7 down -/
  byte6 : readByte m (a + 6) = f.g ++ f.db ++ f.l ++ f.avl ++ f.limit.extractLsb' 16 4
  byte7 : readByte m (a + 7) = f.base.extractLsb' 24 8
  /-- the reserved field, present only when the stride is 12 -/
  reserved : k = .twelve → ∀ j < 4, readByte m (a + 8 + j) = f.rsv.extractLsb' (8 * j) 8

/-- The entry at `a` has a nonzero byte among its bytes 8..11, which it has only when the stride is 12
(30_encoding.md R63). -/
def ReservedBytesSet (k : Stride) (m : Memory) (a : Nat) : Prop :=
  k = .twelve ∧ ∃ j, 8 ≤ j ∧ j < 12 ∧ readByte m (a + j) ≠ 0

/-- Every byte of the entry at `a` is zero: the null descriptor (41_descriptor_table.md R100). -/
def NullEntry (k : Stride) (m : Memory) (a : Nat) : Prop := ∀ j < k.bytes, readByte m (a + j) = 0

/-- Some entry 1 to n-1 of the sequence at `a` has its reserved bytes set. -/
def SomeReservedSet (k : Stride) (m : Memory) (a n : Nat) : Prop :=
  ∃ i, 1 ≤ i ∧ i < n ∧ ReservedBytesSet k m (a + i * k.bytes)

/-- The table passes the memory part of the validation pass (41_descriptor_table.md R103). -/
def ValidTable (k : Stride) (m : Memory) (a n : Nat) : Prop := NullEntry k m a ∧ ¬SomeReservedSet k m a n

/-- The count is at least 1 and the table's length less one fits 16 bits (41_descriptor_table.md R101). -/
def SizeFits (k : Stride) (n : Nat) : Prop := n ≠ 0 ∧ n * k.bytes - 1 ≤ 0xFFFF

/-- Bits 63 down to `vaw`-1 are all zero or all one (42_gdtr_access.md R121). -/
def CanonicalAddress (vaw : Nat) (b : Addr) : Prop :=
  (∀ i, vaw - 1 ≤ i → i < 64 → b.getLsbD i = false) ∨ (∀ i, vaw - 1 ≤ i → i < 64 → b.getLsbD i = true)

/-- INSTALL and LOAD accept this base: the check is off, or the base is canonical (42_gdtr_access.md R121). -/
def BaseAccepted (p : Params) (b : Addr) : Prop := p.checkCanonicalBase = false ∨ CanonicalAddress p.vaw b

/-- The register value whose image stands at `a` (30_encoding.md R65): two bytes of limit, eight of base. -/
def regAt (m : Memory) (a : Nat) : RegValue :=
  { limit := BitVec.ofNat 16 (memRead m a 2), base := BitVec.ofNat 64 (memRead m (a + 2) 8) }

/-- Every byte outside the `n` from `a` up is as before. -/
def KeptOutside (m m' : Memory) (a n : Nat) : Prop := ∀ x, ¬(a ≤ x ∧ x < a + n) → readByte m' x = readByte m x

/-! ### The spec's own words for what a command does -/

/-- The command finished OK: its status is 0x00 and it raised no fault (60_exceptions.md R140). -/
def FinishedOk (s t : State) : Prop := t.rspStatus = some 0x00#8 ∧ t.faultLog = s.faultLog

/-- The command ends in `InvalidDescriptor` with this status byte and no other effect (60_exceptions.md R141). -/
def FailsWith (o : Result) (s : State) (status : BitVec 8) : Prop := o = .next { s with rspStatus := some status }

/-- The command takes a HardwareFault: one record with its opcode and ring goes to the end of FAULT_LOG, and nothing else
changes (60_exceptions.md R143). The record's two numbers are left open (93_implementation_defined.md I3). -/
def TakesHardwareFault (o : Result) (s : State) (op : BitVec 8) (cpl : BitVec 2) : Prop :=
  ∃ e : FaultRecord, e.op = op ∧ e.cpl = cpl ∧ o = .next { s with faultLog := s.faultLog ++ [e] }

/-- The same command, from `s` to `t` and from `s'` to `t'`: if it writes the piece of state that `get` reads, the two results
agree on it; if it does not, each keeps its own. -/
def AgreeOrKept {α : Type} (written : Prop) (get : State → α) (s t s' t' : State) : Prop :=
  (written → get t = get t') ∧ (¬written → get t = get s ∧ get t' = get s')

/-- The ring a command carries; 0 for a command that carries none (30_encoding.md R60). -/
def ringOf : Instr → BitVec 2
  | .encode _ _ => 0
  | .encseg _ _ => 0
  | .decode _ => 0
  | .chkent _ => 0
  | .tbuild _ _ _ => 0
  | .tcheck _ _ => 0
  | .tview _ _ => 0
  | .install _ cpl => cpl
  | .capture _ cpl => cpl
  | .capldt _ cpl => cpl
  | .load _ _ cpl => cpl

/-- The cases in which the block raises a HardwareFault (60_exceptions.md R143). -/
def RaisesFault (i : Instr) (s : State) : Prop :=
  match i with
  | .encode _ _ => False
  | .encseg _ _ => False
  | .decode _ => False
  | .chkent _ => False
  | .tbuild _ _ _ => False
  | .tcheck _ _ => False
  | .tview _ _ => False
  | .install a0 cpl => cpl ≠ 0 ∨ ¬BaseAccepted s.params (regAt s.mem a0.toNat).base
  | .capture _ cpl => s.params.capturePrivileged = true ∧ cpl ≠ 0
  | .capldt _ cpl => s.params.capturePrivileged = true ∧ cpl ≠ 0
  | .load a0 n cpl =>
    SizeFits s.params.stride n.toNat ∧ ValidTable s.params.stride s.mem a0.toNat n.toNat ∧
      (cpl ≠ 0 ∨ ¬BaseAccepted s.params a0)

/-- The bytes a command may write, as a first address and a count (10_state.md R29). -/
def writeRange (i : Instr) (s : State) : Nat × Nat :=
  match i with
  | .encode a0 _ => (a0.toNat, s.params.stride.bytes)
  | .encseg a0 _ => (a0.toNat, s.params.stride.bytes)
  | .decode _ => (0, 0)
  | .chkent _ => (0, 0)
  | .tbuild a0 _ n => (a0.toNat, n.toNat * s.params.stride.bytes)
  | .tcheck _ _ => (0, 0)
  | .tview _ _ => (0, 0)
  | .install _ _ => (0, 0)
  | .capture a0 _ => (a0.toNat, 10)
  | .capldt a0 _ => (a0.toNat, 10)
  | .load _ _ _ => (0, 0)

/-- Every byte range the command names ends inside the address space (10_state.md R29, 20_memory.md R42). -/
def RangesFit (i : Instr) (s : State) : Prop :=
  match i with
  | .encode a0 _ => a0.toNat + s.params.stride.bytes ≤ 2 ^ 64
  | .encseg a0 _ => a0.toNat + s.params.stride.bytes ≤ 2 ^ 64
  | .decode a0 => a0.toNat + s.params.stride.bytes ≤ 2 ^ 64
  | .chkent a0 => a0.toNat + s.params.stride.bytes ≤ 2 ^ 64
  | .tbuild a0 a1 n =>
    a0.toNat + n.toNat * s.params.stride.bytes ≤ 2 ^ 64 ∧ a1.toNat + n.toNat * s.params.stride.bytes ≤ 2 ^ 64
  | .tcheck a0 n => a0.toNat + n.toNat * s.params.stride.bytes ≤ 2 ^ 64
  | .tview _ _ => True
  | .install a0 _ => a0.toNat + 10 ≤ 2 ^ 64
  | .capture a0 _ => a0.toNat + 10 ≤ 2 ^ 64
  | .capldt a0 _ => a0.toNat + 10 ≤ 2 ^ 64
  | .load a0 n _ => a0.toNat + n.toNat * s.params.stride.bytes ≤ 2 ^ 64

/-! ### Legal states -/

/-- The status bytes a command can report (30_encoding.md R67). -/
def legalStatus : List (BitVec 8) := [0x00#8, 0x02#8, 0x11#8, 0x21#8, 0x31#8, 0x41#8, 0x51#8, 0x61#8]

/-- A field record DECODE can produce (40_entry_codec.md R86). -/
def LegalFields (f : FieldRecord) : Prop :=
  f.limit.toNat ≤ limitFieldMax ∧ f.base.toNat ≤ baseFieldMax ∧ f.rsv = 0

/-- A record FAULT_LOG can hold under the parameters `p` (60_exceptions.md R143). -/
def LegalFault (p : Params) (r : FaultRecord) : Prop :=
  r.vector = 13 ∧ r.errcode = 0 ∧
    ((r.op = opInstall ∨ r.op = opLoad) ∧ (r.cpl ≠ 0 ∨ p.checkCanonicalBase = true) ∨
      (r.op = opCapture ∨ r.op = opCapldt) ∧ r.cpl ≠ 0 ∧ p.capturePrivileged = true)

/-- What every reachable state keeps. -/
structure Legal (s : State) : Prop where
  /-- memory is in its canonical form -/
  mem_wf : Memory.wf s.mem = true
  /-- no command writes LDTR (42_gdtr_access.md R128) -/
  ldtr_reset : s.ldtr = s.params.ldtrReset
  /-- MODE is PreExisting only while GDTR holds the firmware's value (42_gdtr_access.md R126) -/
  mode_gdtr : s.mode = .preExisting → s.gdtr = s.params.gdtrReset
  /-- with the check on, GDTR holds the firmware's value or a canonical base (10_state.md R22) -/
  gdtr_canonical : s.params.checkCanonicalBase = true →
    s.gdtr = s.params.gdtrReset ∨ CanonicalAddress s.params.vaw s.gdtr.base
  /-- RSP_STATUS reports one of the outcomes (30_encoding.md R67) -/
  status_legal : ∀ x, s.rspStatus = some x → x ∈ legalStatus
  /-- RSP_ENTRY's bits 95..64 are zero: above the image at stride 8 (10_state.md R25), its reserved field at 12 -/
  entry_legal : ∀ x, s.rspEntry = some x → x.extractLsb' 64 32 = 0
  /-- RSP_FIELDS holds what DECODE can produce (40_entry_codec.md R86) -/
  fields_legal : ∀ f, s.rspFields = some f → LegalFields f
  /-- FAULT_LOG holds only faults the block raises (60_exceptions.md R143) -/
  faults_legal : ∀ r ∈ s.faultLog, LegalFault s.params r

end Sys2Proof.Safety
end

