-- ==== Sys2Proof/Certificates/Slice0/Obligations.lean ====
section
/-!
DEFINITION. The statements for the provers. Each docstring names the rule it rests on, and where a clause is the
model's own choice, the log entry.

Every statement is about every state, so about every value of every parameter (00_scope.md R7): they are data of the
state. `{ s with … }` names what changes; every field not named stays, which is the statement's frame. A memory that
changes is given byte by byte.
-/

open Sys2Proof Sys2Proof.Config Sys2Proof.Machine Sys2Proof.Safety

/-! ### Decoding and stepping -/

/-- Records written out byte by byte decode to the commands they stand for (30_encoding.md R60, R66). The places of the
fields are the model's choice (log 7). -/
def Obligations.WrittenOutRecordsDecode : Prop :=
  decodeBytes ([0x0B#8, 0x00#8, 0x10#8, 0#8, 0#8, 0#8, 0#8, 0#8, 0#8] ++ List.replicate 8 0#8 ++
      [3#8, 0#8, 0#8, 0#8, 3#8] ++ List.replicate 31 0#8) = .ok (.load 0x1000#64 3#32 3#2, []) ∧
  decodeBytes ([0x05#8, 0x00#8, 0x10#8, 0#8, 0#8, 0#8, 0#8, 0#8, 0#8, 0x00#8, 0x20#8, 0#8, 0#8, 0#8, 0#8, 0#8, 0#8,
      0x01#8, 0x02#8, 0#8, 0#8] ++ List.replicate 32 0#8 ++ [0xAA#8]) =
    .ok (.tbuild 0x1000#64 0x2000#64 0x201#32, [0xAA#8]) ∧
  decodeBytes ([0x08#8, 0x01#8, 0x02#8, 0x03#8, 0x04#8, 0x05#8, 0x06#8, 0x07#8, 0x08#8] ++ List.replicate 44 0#8) =
    .ok (.install 0x0807060504030201#64 0#2, []) ∧
  decodeBytes (0x0C#8 :: List.replicate 52 0#8) = .error (.reservedOpcode 0x0C#8) ∧
  decodeBytes [0x0B#8] = .error (.truncatedRecord 1)

/-- Decoding the bytes of a command gives the command back, with every operand at every value, whatever bytes follow
(30_encoding.md R60, R66, R69, R70). The layout is the model's choice (log 7). -/
def Obligations.DecodeBytesOfEncodedCommand : Prop :=
  ∀ (i : Instr) (rest : List Byte), decodeBytes (encodeBytes i ++ rest) = .ok (i, rest)

/-- A record with zero in every field its command does not use is the record the encoder writes for what it decodes to,
but for `cpl`, which comes with every command (30_encoding.md R71, 10_state.md R27). -/
def Obligations.EncodeGivesBackWellFormedRecord : Prop :=
  ∀ (r : CommandRecord) (i : Instr), r.wellFormed = true → decodeRecord r = .ok i → { encode i with cpl := r.cpl } = r

/-- A field a command does not use has no effect on what the record decodes to (30_encoding.md R60). -/
def Obligations.UnusedFieldsAreIgnored : Prop :=
  ∀ r r' : CommandRecord, r.op = r'.op → (r.opAssigned = true → r.a0 = r'.a0) → (usesA1 r.op = true → r.a1 = r'.a1) →
    (usesN r.op = true → r.n = r'.n) → (usesCpl r.op = true → r.cpl = r'.cpl) → (usesF r.op = true → r.f = r'.f) →
    (usesSp r.op = true → r.sp = r'.sp) → decodeRecord r = decodeRecord r'

/-- A reserved opcode, whatever the other fields hold: RSP_STATUS becomes 0x02 and nothing else changes but that the
command is taken from the queue; and a record with any other opcode, whatever its operands, is a command (30_encoding.md
R68, 60_exceptions.md R142). The queue `pending` and the taking from it are the model's choice (log 8). -/
def Obligations.ReservedOpcodeIsIllegalCommand : Prop :=
  (∀ (s : State) (r : CommandRecord) (rest : List CommandRecord), s.pending = r :: rest →
    (r.op = 0x00#8 ∨ 0x0C ≤ r.op.toNat) → step s = .next { s with pending := rest, rspStatus := some 0x02#8 }) ∧
  (∀ r : CommandRecord, 1 ≤ r.op.toNat → r.op.toNat ≤ 0x0B → ∃ i, decodeRecord r = .ok i ∧ opcodeOf i = r.op)

/-- A step takes the first issued command and runs it; with none issued the block waits (10_state.md R21,
70_reset_and_hazards.md R160; the queue is log 8). -/
def Obligations.StepRunsTheDecodedCommand : Prop :=
  (∀ (s : State) (r : CommandRecord) (rest : List CommandRecord) (i : Instr), s.pending = r :: rest →
    decodeRecord r = .ok i → step s = exec i { s with pending := rest }) ∧
  (∀ s : State, s.pending = [] → step s = .next s)

/-- The assembler writes a record in which every unused field other than `cpl` is zero (30_encoding.md R71). `cpl` holds the
K of `@K` for every command, used or not: that is the model's choice (log 17). -/
def Obligations.AssemblerWritesUnusedFieldsZero : Prop :=
  ∀ (x : AsmLine) (r : CommandRecord), assembleLine x = some r → r.wellFormed = true

/-- The pseudo-instructions are their expansions (30_encoding.md R72). -/
def Obligations.PseudoInstructionsAreTheirExpansions : Prop :=
  ∀ (cpl : BitVec 2) (a0 dpl : Nat) (kind : Operand),
    commandOf cpl .flatseg [.num a0, kind, .num dpl] =
      commandOf cpl .encseg [.num a0, .num 0, .num 0xFFFFF, .num 1, .num 1, .num 0, .num dpl, kind, .num 1] ∧
    commandOf cpl .flatcode64 [.num a0, .num dpl] =
      commandOf cpl .encseg [.num a0, .num 0, .num 0xFFFFF, .num 1, .num 0, .num 1, .num dpl, .code, .num 1] ∧
    commandOf cpl .nullent [.num a0] =
      commandOf cpl .encode [.num a0, .num 0, .num 0, .num 0, .num 0, .num 0, .num 0, .num 0, .num 0, .num 0, .num 0,
        .num 0, .num 0, .num 0] ∧
    commandOf cpl .save [.num a0] = commandOf cpl .capture [.num a0] ∧
    commandOf cpl .restore [.num a0] = commandOf cpl .install [.num a0]

/-! ### The entry codec -/

/-- PackEntry and UnpackEntry are inverse to each other between legal field records and legal images, at either stride
(40_entry_codec.md R88). -/
def Obligations.PackAndUnpackEntryAreInverse : Prop :=
  (∀ (k : Stride) (f : FieldRecord), checkFields f = none →
    unpackEntry k (packEntry k f) = f ∧ (packEntry k f).extractLsb' 64 32 = 0) ∧
  (∀ (k : Stride) (x : BitVec 96), x.extractLsb' 64 32 = 0 →
    packEntry k (unpackEntry k x) = x ∧ checkFields (unpackEntry k x) = none)

/-- ENCODE, whole (40_entry_codec.md R84): the three failures in R83's order, each writing only RSP_STATUS; and for a
legal field record in admitted memory it completes, with the entry's bytes, RSP_ENTRY their zero-extended value, status
0x00, and nothing else. -/
def Obligations.EncodeStoresTheDescriptorOrReportsTheFirstFailure : Prop :=
  ∀ (s : State) (a0 : Addr) (f : FieldRecord),
    (0xFFFFF < f.limit.toNat → FailsWith (exec (.encode a0 f) s) s 0x11#8) ∧
    (f.limit.toNat ≤ 0xFFFFF → 0xFFFFFFFF < f.base.toNat → FailsWith (exec (.encode a0 f) s) s 0x21#8) ∧
    (f.limit.toNat ≤ 0xFFFFF → f.base.toNat ≤ 0xFFFFFFFF → f.rsv ≠ 0 → FailsWith (exec (.encode a0 f) s) s 0x31#8) ∧
    (f.limit.toNat ≤ 0xFFFFF → f.base.toNat ≤ 0xFFFFFFFF → f.rsv = 0 →
      admitted s.params a0.toNat s.params.stride.bytes = true →
      ∃ m, exec (.encode a0 f) s = .next
          { s with
            mem := m
            rspEntry := some (BitVec.ofNat 96 (memRead m a0.toNat s.params.stride.bytes))
            rspStatus := some 0x00#8 } ∧
        EntryBytes s.params.stride m a0.toNat f ∧ KeptOutside s.mem m a0.toNat s.params.stride.bytes)

/-- ENCSEG, whole (40_entry_codec.md R85): what ENCODE does with the field record that has S = 1, E = kind, RW = 1 and
DC, A, AVL, rsv zero; RESERVED_SET cannot occur. -/
def Obligations.EncsegStoresTheSegmentOrReportsTheFirstFailure : Prop :=
  ∀ (s : State) (a0 : Addr) (q : SegParams),
    (0xFFFFF < q.limit.toNat → FailsWith (exec (.encseg a0 q) s) s 0x11#8) ∧
    (q.limit.toNat ≤ 0xFFFFF → 0xFFFFFFFF < q.base.toNat → FailsWith (exec (.encseg a0 q) s) s 0x21#8) ∧
    (q.limit.toNat ≤ 0xFFFFF → q.base.toNat ≤ 0xFFFFFFFF →
      admitted s.params a0.toNat s.params.stride.bytes = true →
      ∃ m, exec (.encseg a0 q) s = .next
          { s with
            mem := m
            rspEntry := some (BitVec.ofNat 96 (memRead m a0.toNat s.params.stride.bytes))
            rspStatus := some 0x00#8 } ∧
        EntryBytes s.params.stride m a0.toNat
          { base := q.base, limit := q.limit, g := q.g, db := q.db, l := q.l, avl := 0, p := q.p, dpl := q.dpl, s := 1,
            e := q.kind, dc := 0, rw := 1, a := 0, rsv := 0 } ∧
        KeptOutside s.mem m a0.toNat s.params.stride.bytes)

/-- DECODE, whole (40_entry_codec.md R86): RESERVED_SET for a nonzero reserved field, and otherwise it completes with the
one legal field record whose bytes stand at the address. -/
def Obligations.DecodeReadsTheDescriptorOrReportsReservedSet : Prop :=
  ∀ (s : State) (a0 : Addr), admitted s.params a0.toNat s.params.stride.bytes = true →
    (ReservedBytesSet s.params.stride s.mem a0.toNat → FailsWith (exec (.decode a0) s) s 0x31#8) ∧
    (¬ReservedBytesSet s.params.stride s.mem a0.toNat →
      ∃ f, exec (.decode a0) s = .next { s with rspFields := some f, rspStatus := some 0x00#8 } ∧
        EntryBytes s.params.stride s.mem a0.toNat f ∧ LegalFields f)

/-- CHKENT, whole (40_entry_codec.md R87): RESERVED_SET for a nonzero reserved field, and otherwise status 0x00; no other
effect. At stride 8 it always finishes OK. -/
def Obligations.ChkentReportsReservedSetOrOk : Prop :=
  ∀ (s : State) (a0 : Addr), admitted s.params a0.toNat s.params.stride.bytes = true →
    (ReservedBytesSet s.params.stride s.mem a0.toNat → FailsWith (exec (.chkent a0) s) s 0x31#8) ∧
    (¬ReservedBytesSet s.params.stride s.mem a0.toNat →
      exec (.chkent a0) s = .next { s with rspStatus := some 0x00#8 }) ∧
    (s.params.stride = .eight → exec (.chkent a0) s = .next { s with rspStatus := some 0x00#8 })

/-- DECODE right after ENCODE gives back the field record that was encoded (95_test_vectors.md, "Round trip"; R88). -/
def Obligations.DecodeAfterEncodeGivesTheFieldsBack : Prop :=
  ∀ (s : State) (a0 : Addr) (f : FieldRecord), checkFields f = none →
    admitted s.params a0.toNat s.params.stride.bytes = true →
    ∃ t, exec (.encode a0 f) s = .next t ∧ FinishedOk s t ∧
      exec (.decode a0) t = .next { t with rspFields := some f, rspStatus := some 0x00#8 }

/-- The effective limit and the segment size (40_entry_codec.md R82). The scaling of G = 1 is the spec's general
knowledge (log 19). -/
def Obligations.EffectiveLimitScalesByGranularity : Prop :=
  (∀ limit : BitVec 20, (effLimit limit 0).toNat = limit.toNat ∧
    (effLimit limit 1).toNat = limit.toNat * 4096 + 4095) ∧
  (∀ (limit : BitVec 20) (g : BitVec 1), (segSize limit g).toNat = (effLimit limit g).toNat + 1) ∧
  effLimit 0xFFFFF#20 1 = 0xFFFFFFFF#32 ∧ (segSize 0xFFFFF#20 1).toNat = 2 ^ 32

/-! ### The descriptor table -/

/-- TBUILD, whole (41_descriptor_table.md R102): EMPTY_TABLE, TABLE_TOO_LARGE, RESERVED_SET in that order, with no byte
written; and otherwise it completes with a null entry 0, the source's bytes as they were before the command in entries
1 to n-1 (source and destination may overlap), and every other byte as before. -/
def Obligations.TbuildBuildsTheTableOrWritesNothing : Prop :=
  ∀ (s : State) (a0 a1 : Addr) (n : BitVec 32),
    (n = 0 → FailsWith (exec (.tbuild a0 a1 n) s) s 0x41#8) ∧
    (n ≠ 0 → 0xFFFF < n.toNat * s.params.stride.bytes - 1 → FailsWith (exec (.tbuild a0 a1 n) s) s 0x51#8) ∧
    (SizeFits s.params.stride n.toNat →
      admitted s.params (a1.toNat + s.params.stride.bytes) ((n.toNat - 1) * s.params.stride.bytes) = true →
      (SomeReservedSet s.params.stride s.mem a1.toNat n.toNat → FailsWith (exec (.tbuild a0 a1 n) s) s 0x31#8) ∧
      (¬SomeReservedSet s.params.stride s.mem a1.toNat n.toNat →
        admitted s.params a0.toNat (n.toNat * s.params.stride.bytes) = true →
        ∃ m, exec (.tbuild a0 a1 n) s = .next { s with mem := m, rspStatus := some 0x00#8 } ∧
          NullEntry s.params.stride m a0.toNat ∧
          (∀ j, s.params.stride.bytes ≤ j → j < n.toNat * s.params.stride.bytes →
            readByte m (a0.toNat + j) = readByte s.mem (a1.toNat + j)) ∧
          KeptOutside s.mem m a0.toNat (n.toNat * s.params.stride.bytes)))

/-- TCHECK, whole (41_descriptor_table.md R103): EMPTY_TABLE, TABLE_TOO_LARGE, NULL_NOT_ZERO, RESERVED_SET in that order,
else OK; only RSP_STATUS is written. -/
def Obligations.TcheckReportsTheFirstFailureOrOk : Prop :=
  ∀ (s : State) (a0 : Addr) (n : BitVec 32),
    (n = 0 → FailsWith (exec (.tcheck a0 n) s) s 0x41#8) ∧
    (n ≠ 0 → 0xFFFF < n.toNat * s.params.stride.bytes - 1 → FailsWith (exec (.tcheck a0 n) s) s 0x51#8) ∧
    (SizeFits s.params.stride n.toNat → admitted s.params a0.toNat (n.toNat * s.params.stride.bytes) = true →
      (¬NullEntry s.params.stride s.mem a0.toNat → FailsWith (exec (.tcheck a0 n) s) s 0x61#8) ∧
      (NullEntry s.params.stride s.mem a0.toNat → SomeReservedSet s.params.stride s.mem a0.toNat n.toNat →
        FailsWith (exec (.tcheck a0 n) s) s 0x31#8) ∧
      (ValidTable s.params.stride s.mem a0.toNat n.toNat →
        exec (.tcheck a0 n) s = .next { s with rspStatus := some 0x00#8 }))

/-- TVIEW, whole (41_descriptor_table.md R104): EMPTY_TABLE, TABLE_TOO_LARGE, else RSP_REG holds limit n*stride-1 and base
a0; nothing else changes and no memory need be admitted. -/
def Obligations.TviewDerivesTheRegisterValue : Prop :=
  ∀ (s : State) (a0 : Addr) (n : BitVec 32),
    (n = 0 → FailsWith (exec (.tview a0 n) s) s 0x41#8) ∧
    (n ≠ 0 → 0xFFFF < n.toNat * s.params.stride.bytes - 1 → FailsWith (exec (.tview a0 n) s) s 0x51#8) ∧
    (SizeFits s.params.stride n.toNat →
      ∃ x : BitVec 80, exec (.tview a0 n) s = .next { s with rspReg := some x, rspStatus := some 0x00#8 } ∧
        (x.extractLsb' 0 16).toNat = n.toNat * s.params.stride.bytes - 1 ∧ x.extractLsb' 16 64 = a0)

/-- A table TBUILD has built passes TCHECK, in any later state with the same parameters in which the table's bytes are
still those (41_descriptor_table.md R105 (a), (b)). -/
def Obligations.BuiltTablePassesTcheckUntilWritten : Prop :=
  ∀ (s t u : State) (a0 a1 : Addr) (n : BitVec 32), exec (.tbuild a0 a1 n) s = .next t → FinishedOk s t →
    u.params = t.params →
    (∀ j < n.toNat * s.params.stride.bytes, readByte u.mem (a0.toNat + j) = readByte t.mem (a0.toNat + j)) →
    exec (.tcheck a0 n) u = .next { u with rspStatus := some 0x00#8 } ∧
      NullEntry u.params.stride u.mem a0.toNat

/-- TBUILD, TCHECK, TVIEW and LOAD agree on whether n passes the size check, at any ring and in any memory
(41_descriptor_table.md R105 (d)): a count that fails it ends all four with the same status, 0x41 or 0x51, and one that
passes ends none of them so. -/
def Obligations.TableCommandsAgreeOnSize : Prop :=
  ∀ (s : State) (a0 a1 : Addr) (n : BitVec 32) (cpl : BitVec 2) (x : BitVec 8),
    (((n = 0 ∧ x = 0x41#8) ∨ (n ≠ 0 ∧ 0xFFFF < n.toNat * s.params.stride.bytes - 1 ∧ x = 0x51#8)) →
      FailsWith (exec (.tbuild a0 a1 n) s) s x ∧ FailsWith (exec (.tcheck a0 n) s) s x ∧
        FailsWith (exec (.tview a0 n) s) s x ∧ FailsWith (exec (.load a0 n cpl) s) s x) ∧
    (SizeFits s.params.stride n.toNat → x = 0x41#8 ∨ x = 0x51#8 →
      ¬FailsWith (exec (.tbuild a0 a1 n) s) s x ∧ ¬FailsWith (exec (.tcheck a0 n) s) s x ∧
        ¬FailsWith (exec (.tview a0 n) s) s x ∧ ¬FailsWith (exec (.load a0 n cpl) s) s x)

/-- The largest table: the size check passes exactly from 1 to MAX_ENTRIES = floor(65536 / stride), 5461 entries at stride
12 and 8192 at stride 8, with the lengths and limits the rule gives (00_scope.md R9). -/
def Obligations.SizeCheckPassesUpToMaxEntries : Prop :=
  (∀ (p : Params) (n : Nat), checkSize p.stride n = none ↔ 1 ≤ n ∧ n ≤ 65536 / p.stride.bytes) ∧
  (∀ p : Params, p.maxEntries = 65536 / p.stride.bytes ∧
    (p.stride = .twelve → p.maxEntries = 5461 ∧ tableLen p.stride p.maxEntries = 65532 ∧
      tableLimit p.stride p.maxEntries = 0xFFFB) ∧
    (p.stride = .eight → p.maxEntries = 8192 ∧ tableLen p.stride p.maxEntries = 65536 ∧
      tableLimit p.stride p.maxEntries = 0xFFFF))

/-! ### Register access -/

/-- The register image (30_encoding.md R65): bytes 0..1 hold the limit and bytes 2..9 the base; limit is bits 15..0 and
base bits 79..16; PackReg and UnpackReg are inverse bijections. -/
def Obligations.RegisterImageIsTheLimitThenTheBase : Prop :=
  (∀ v : RegValue, unpackReg (packReg v) = v) ∧ (∀ x : BitVec 80, packReg (unpackReg x) = x) ∧
  (∀ v : RegValue, (packReg v).extractLsb' 0 16 = v.limit ∧ (packReg v).extractLsb' 16 64 = v.base) ∧
  (∀ (m : Memory) (a : Nat) (v : RegValue),
    memRead (memWrite m a 10 (packReg v).toNat) a 2 = v.limit.toNat ∧
      memRead (memWrite m a 10 (packReg v).toNat) (a + 2) 8 = v.base.toNat)

/-- INSTALL, whole (42_gdtr_access.md R122): at ring 1 to 3 a HardwareFault, whatever a0 is; at ring 0 a HardwareFault for
a base that is not canonical when that is checked, and otherwise it completes: GDTR is the image at a0, MODE follows the
value, status 0x00, nothing else changes. -/
def Obligations.InstallWritesGdtrAtRingZeroOnly : Prop :=
  ∀ (s : State) (a0 : Addr) (cpl : BitVec 2),
    (cpl ≠ 0 → TakesHardwareFault (exec (.install a0 cpl) s) s 0x08#8 cpl) ∧
    (cpl = 0 → admitted s.params a0.toNat 10 = true →
      (¬BaseAccepted s.params (regAt s.mem a0.toNat).base →
        TakesHardwareFault (exec (.install a0 cpl) s) s 0x08#8 cpl) ∧
      (BaseAccepted s.params (regAt s.mem a0.toNat).base →
        exec (.install a0 cpl) s = .next
          { s with
            gdtr := regAt s.mem a0.toNat
            mode := if regAt s.mem a0.toNat = s.params.gdtrReset then .preExisting else .flatInstalled
            rspStatus := some 0x00#8 }))

/-- CAPTURE and CAPLDT, whole (42_gdtr_access.md R123, R124): a HardwareFault at ring 1 to 3 when they are privileged;
otherwise they complete, with the register's ten bytes at a0, RSP_REG its image, status 0x00, and nothing else. -/
def Obligations.CapturesStoreTheRegisterImage : Prop :=
  ∀ (s : State) (a0 : Addr) (cpl : BitVec 2) (i : Instr) (v : RegValue) (op : BitVec 8),
    (i = .capture a0 cpl ∧ v = s.gdtr ∧ op = 0x09#8) ∨ (i = .capldt a0 cpl ∧ v = s.ldtr ∧ op = 0x0A#8) →
    (s.params.capturePrivileged = true ∧ cpl ≠ 0 → TakesHardwareFault (exec i s) s op cpl) ∧
    (¬(s.params.capturePrivileged = true ∧ cpl ≠ 0) → admitted s.params a0.toNat 10 = true →
      ∃ m, exec i s = .next
          { s with mem := m, rspReg := some (v.base ++ v.limit), rspStatus := some 0x00#8 } ∧
        memRead m a0.toNat 2 = v.limit.toNat ∧ memRead m (a0.toNat + 2) 8 = v.base.toNat ∧
        KeptOutside s.mem m a0.toNat 10)

/-- LOAD, whole (42_gdtr_access.md R125): every validation failure at any ring, in TCHECK's order, writing only RSP_STATUS;
then, for a valid table, a HardwareFault at ring 1 to 3 or for a refused base; and otherwise it completes: GDTR is
(n*stride-1, a0), MODE FlatInstalled, RSP_REG the image, status 0x00, nothing else. -/
def Obligations.LoadValidatesThenInstallsAtRingZero : Prop :=
  ∀ (s : State) (a0 : Addr) (n : BitVec 32) (cpl : BitVec 2),
    (n = 0 → FailsWith (exec (.load a0 n cpl) s) s 0x41#8) ∧
    (n ≠ 0 → 0xFFFF < n.toNat * s.params.stride.bytes - 1 → FailsWith (exec (.load a0 n cpl) s) s 0x51#8) ∧
    (SizeFits s.params.stride n.toNat → admitted s.params a0.toNat (n.toNat * s.params.stride.bytes) = true →
      (¬NullEntry s.params.stride s.mem a0.toNat → FailsWith (exec (.load a0 n cpl) s) s 0x61#8) ∧
      (NullEntry s.params.stride s.mem a0.toNat → SomeReservedSet s.params.stride s.mem a0.toNat n.toNat →
        FailsWith (exec (.load a0 n cpl) s) s 0x31#8) ∧
      (ValidTable s.params.stride s.mem a0.toNat n.toNat →
        (cpl ≠ 0 ∨ ¬BaseAccepted s.params a0 → TakesHardwareFault (exec (.load a0 n cpl) s) s 0x0B#8 cpl) ∧
        (cpl = 0 → BaseAccepted s.params a0 →
          ∃ limit : BitVec 16, limit.toNat = n.toNat * s.params.stride.bytes - 1 ∧
            exec (.load a0 n cpl) s = .next
              { s with
                gdtr := { limit := limit, base := a0 }
                mode := .flatInstalled
                rspReg := some (a0 ++ limit)
                rspStatus := some 0x00#8 })))

/-- Save and restore is a no-op (42_gdtr_access.md R129 (a)): a CAPTURE, then later, with the ten bytes as it left them, an
INSTALL of them that finishes OK leaves GDTR as it was before the CAPTURE; right after the CAPTURE the INSTALL does finish
OK, but for a GDTR whose base is refused; and the lookup of every selector is then as before, if the image does not
overlap the active table (the lookup is log 14). -/
def Obligations.CaptureThenInstallRestoresGdtr : Prop :=
  ∀ (s t : State) (m : Addr), exec (.capture m 0) s = .next t → FinishedOk s t →
    (∀ u v : State, (∀ j < 10, readByte u.mem (m.toNat + j) = readByte t.mem (m.toNat + j)) →
      exec (.install m 0) u = .next v → FinishedOk u v → v.gdtr = s.gdtr) ∧
    (BaseAccepted s.params s.gdtr.base → ∃ v, exec (.install m 0) t = .next v ∧ FinishedOk t v) ∧
    (∀ v : State, exec (.install m 0) t = .next v → FinishedOk t v → ¬OverlapsActive s m.toNat 10 →
      ∀ sel, observe v.gdtr v.mem sel = observe s.gdtr s.mem sel)

/-- Save, load, restore (42_gdtr_access.md R129 (b)): from a state that holds the firmware's value, CAPTURE, LOAD, INSTALL
and CAPTURE again, all finishing OK, leave the two images equal to the firmware's value and MODE PreExisting. -/
def Obligations.SaveLoadRestoreGivesBackTheFirmwareValue : Prop :=
  ∀ (s s1 s2 s3 s4 : State) (m0 m1 tbl : Addr) (n : BitVec 32), s.gdtr = s.params.gdtrReset →
    (m0.toNat + 10 ≤ m1.toNat ∨ m1.toNat + 10 ≤ m0.toNat) →
    exec (.capture m0 0) s = .next s1 → FinishedOk s s1 → exec (.load tbl n 0) s1 = .next s2 → FinishedOk s1 s2 →
    exec (.install m0 0) s2 = .next s3 → FinishedOk s2 s3 → exec (.capture m1 0) s3 = .next s4 → FinishedOk s3 s4 →
    memRead s4.mem m1.toNat 10 = memRead s4.mem m0.toNat 10 ∧
      memRead s4.mem m0.toNat 10 = (packReg s.params.gdtrReset).toNat ∧ s4.mode = .preExisting ∧
      s2.gdtr.base = tbl

/-- After a LOAD that finishes OK, CAPTURE returns the value derived from the table (42_gdtr_access.md R129 (c)). -/
def Obligations.CaptureAfterLoadReturnsTheDerivedValue : Prop :=
  ∀ (s t : State) (a0 m : Addr) (n : BitVec 32) (cpl : BitVec 2), exec (.load a0 n cpl) s = .next t → FinishedOk s t →
    admitted t.params m.toNat 10 = true →
    ∃ u, exec (.capture m 0) t = .next u ∧ FinishedOk t u ∧
      memRead u.mem m.toNat 10 = a0.toNat * 65536 + (n.toNat * s.params.stride.bytes - 1) ∧
      u.rspReg = some (BitVec.ofNat 80 (memRead u.mem m.toNat 10))

/-- A LOAD that changes GDTR has installed a table that passes the validation, at ring 0 (42_gdtr_access.md R125,
60_exceptions.md R141: "no CPU state is touched"). -/
def Obligations.LoadInstallsOnlyAValidTable : Prop :=
  ∀ (s t : State) (a0 : Addr) (n : BitVec 32) (cpl : BitVec 2), exec (.load a0 n cpl) s = .next t → t.gdtr ≠ s.gdtr →
    cpl = 0 ∧ SizeFits s.params.stride n.toNat ∧ ValidTable s.params.stride s.mem a0.toNat n.toNat ∧
      exec (.tcheck a0 n) t = .next t

/-- Construct before install (70_reset_and_hazards.md R162): a table that TBUILD has built and LOAD has installed holds no
byte that nothing has written. -/
def Obligations.BuildThenLoadInstallsAConstructedTable : Prop :=
  ∀ (s t u : State) (a0 a1 : Addr) (n : BitVec 32) (cpl : BitVec 2), exec (.tbuild a0 a1 n) s = .next t →
    FinishedOk s t → exec (.load a0 n cpl) t = .next u → FinishedOk t u → Constructed u.mem u.gdtr

/-- At stride 8, once a table is loaded, the processor's lookup of selector index i gives entry i of the table, index 0 the
null descriptor, and an index past the last entry a general-protection fault (70_reset_and_hazards.md R165; the lookup is
the spec's general knowledge, log 14). -/
def Obligations.LoadedStrideEightTableIsWhatTheProcessorSees : Prop :=
  ∀ (s t : State) (a0 : Addr) (n : BitVec 32) (cpl : BitVec 2) (index : BitVec 13) (rpl : BitVec 2),
    s.params.stride = .eight → exec (.load a0 n cpl) s = .next t → FinishedOk s t →
    (index = 0 → observe t.gdtr t.mem (index ++ 0#1 ++ rpl) = .null) ∧
    (index ≠ 0 → index.toNat < n.toNat →
      observe t.gdtr t.mem (index ++ 0#1 ++ rpl) =
        .descriptor ((entryImage .eight t.mem (a0.toNat + index.toNat * 8)).extractLsb' 0 64)) ∧
    (index ≠ 0 → n.toNat ≤ index.toNat → observe t.gdtr t.mem (index ++ 0#1 ++ rpl) = .gpFault)

/-- At stride 12, once a table is loaded, the processor steps through it by 8 bytes: it sees entry 2j whole at index 3j, but
at index 3j+1 a descriptor made of entry 2j's zero reserved field and the low half of entry 2j+1, and at index 3j+2 one made
of entry 2j+1's bytes 4 to 11 (70_reset_and_hazards.md R165; the lookup is the spec's general knowledge, log 14). -/
def Obligations.LoadedStrideTwelveTableIsMisreadByTheProcessor : Prop :=
  ∀ (s t : State) (a0 : Addr) (n : BitVec 32) (cpl : BitVec 2) (index : BitVec 13) (rpl : BitVec 2) (j : Nat),
    s.params.stride = .twelve → exec (.load a0 n cpl) s = .next t → FinishedOk s t →
    (j ≠ 0 → 2 * j < n.toNat → index.toNat = 3 * j →
      observe t.gdtr t.mem (index ++ 0#1 ++ rpl) =
        .descriptor ((entryImage .twelve t.mem (a0.toNat + 2 * j * 12)).extractLsb' 0 64)) ∧
    (2 * j + 1 < n.toNat → index.toNat = 3 * j + 1 →
      observe t.gdtr t.mem (index ++ 0#1 ++ rpl) =
        .descriptor ((entryImage .twelve t.mem (a0.toNat + (2 * j + 1) * 12)).extractLsb' 0 32 ++ 0#32)) ∧
    (2 * j + 1 < n.toNat → index.toNat = 3 * j + 2 →
      observe t.gdtr t.mem (index ++ 0#1 ++ rpl) =
        .descriptor ((entryImage .twelve t.mem (a0.toNat + (2 * j + 1) * 12)).extractLsb' 32 64))

/-! ### Memory -/

/-- MemRead is the sum over the bytes, a MemWrite reads back, and a read apart from a write is unchanged (20_memory.md
R42, R46). -/
def Obligations.MemReadAndMemWriteAreLittleEndian : Prop :=
  (∀ (m : Memory) (a n : Nat), memRead m a n = ∑ k ∈ Finset.range n, (readByte m (a + k)).toNat <<< (8 * k)) ∧
  (∀ (m : Memory) (a n v : Nat), memRead (memWrite m a n v) a n = v % 2 ^ (8 * n)) ∧
  (∀ (m : Memory) (a n v b c : Nat), b + c ≤ a ∨ a + n ≤ b → memRead (memWrite m a n v) b c = memRead m b c)

/-- A command whose access is not admitted has no step: the block is stuck (20_memory.md R42, R48; the fault's name is log
9). The check covers the path the command's own checks take: an INSTALL at ring 1 to 3, a command with an illegal count
or field, and a TBUILD whose source has its reserved bytes set stop before it; LOAD reads its table before the
privilege check. -/
def Obligations.UnadmittedAccessIsStuck : Prop :=
  ∀ (s : State) (a0 a1 : Addr) (f : FieldRecord) (q : SegParams) (n : BitVec 32) (cpl : BitVec 2),
    (checkFields f = none → admitted s.params a0.toNat s.params.stride.bytes = false →
      exec (.encode a0 f) s = .fault .unadmittedAccess) ∧
    (q.limit.toNat ≤ 0xFFFFF → q.base.toNat ≤ 0xFFFFFFFF →
      admitted s.params a0.toNat s.params.stride.bytes = false → exec (.encseg a0 q) s = .fault .unadmittedAccess) ∧
    (admitted s.params a0.toNat s.params.stride.bytes = false →
      exec (.decode a0) s = .fault .unadmittedAccess ∧ exec (.chkent a0) s = .fault .unadmittedAccess) ∧
    (SizeFits s.params.stride n.toNat →
      admitted s.params (a1.toNat + s.params.stride.bytes) ((n.toNat - 1) * s.params.stride.bytes) = false →
      exec (.tbuild a0 a1 n) s = .fault .unadmittedAccess) ∧
    (SizeFits s.params.stride n.toNat → ¬SomeReservedSet s.params.stride s.mem a1.toNat n.toNat →
      admitted s.params a0.toNat (n.toNat * s.params.stride.bytes) = false →
      exec (.tbuild a0 a1 n) s = .fault .unadmittedAccess) ∧
    (SizeFits s.params.stride n.toNat → admitted s.params a0.toNat (n.toNat * s.params.stride.bytes) = false →
      exec (.tcheck a0 n) s = .fault .unadmittedAccess ∧ exec (.load a0 n cpl) s = .fault .unadmittedAccess) ∧
    (cpl = 0 → admitted s.params a0.toNat 10 = false → exec (.install a0 cpl) s = .fault .unadmittedAccess) ∧
    (s.params.capturePrivileged = false ∨ cpl = 0 → admitted s.params a0.toNat 10 = false →
      exec (.capture a0 cpl) s = .fault .unadmittedAccess ∧ exec (.capldt a0 cpl) s = .fault .unadmittedAccess)

/-- Where the whole address space is admitted and the command's ranges end inside it, every command has a next state, in
every state, with every operand, at every ring (60_exceptions.md R140): nothing is refused. -/
def Obligations.EveryCommandHasAStepWhereMemoryIsAdmitted : Prop :=
  ∀ (i : Instr) (s : State), (∀ a < 2 ^ 64, byteAdmitted s.params a = true) → RangesFit i s →
    ∃ t, exec i s = .next t

/-! ### Rules of the whole machine -/

/-- Every command ends in one of its outcomes, with the effects that outcome allows (60_exceptions.md R140, R141, R143,
00_scope.md R12): stuck; one of the six InvalidDescriptor reasons and only RSP_STATUS; a HardwareFault and only FAULT_LOG;
or OK with status 0x00 and no fault. IllegalCommand is the step's (`ReservedOpcodeIsIllegalCommand`). -/
def Obligations.EveryCommandEndsInOneOutcome : Prop :=
  ∀ (i : Instr) (s : State),
    exec i s = .fault .unadmittedAccess ∨
    (∃ x ∈ [0x11#8, 0x21#8, 0x31#8, 0x41#8, 0x51#8, 0x61#8], FailsWith (exec i s) s x) ∨
    TakesHardwareFault (exec i s) s (opcodeOf i) (ringOf i) ∨
    (∃ t, exec i s = .next t ∧ FinishedOk s t)

/-- The block raises a HardwareFault in exactly the cases the spec lists, and one changes nothing but FAULT_LOG
(60_exceptions.md R143). The vector 13 and error code 0 of the record are the spec's general knowledge (log 11). -/
def Obligations.HardwareFaultInExactlyTheListedCases : Prop :=
  ∀ (i : Instr) (s t : State), exec i s = .next t →
    (t.faultLog ≠ s.faultLog ↔ RaisesFault i s) ∧
    (RaisesFault i s →
      t = { s with faultLog := s.faultLog ++ [{ op := opcodeOf i, cpl := ringOf i, vector := 13, errcode := 0 }] })

/-- GDTR changes only by an INSTALL or a LOAD at ring 0 that finishes OK (10_state.md R22, R27, 60_exceptions.md R149). -/
def Obligations.GdtrChangesOnlyAtRingZero : Prop :=
  ∀ (i : Instr) (s t : State), exec i s = .next t → t.gdtr ≠ s.gdtr →
    ((∃ a0, i = .install a0 0) ∨ ∃ a0 n, i = .load a0 n 0) ∧ FinishedOk s t

/-- No command writes LDTR (42_gdtr_access.md R128), and no step writes a parameter: that the parameters stand in the state
is the model's inference (log 1). -/
def Obligations.NoStepWritesLdtr : Prop :=
  ∀ s t : State, step s = .next t → t.ldtr = s.ldtr ∧ t.params = s.params

/-- FAULT_LOG only grows, by at most one record a step, at its end; no command removes an entry (10_state.md R26). -/
def Obligations.FaultLogOnlyGrows : Prop :=
  ∀ s t : State, step s = .next t → ∃ l : List FaultRecord, l.length ≤ 1 ∧ t.faultLog = s.faultLog ++ l

/-- MODE (42_gdtr_access.md R126): a LOAD that finishes OK gives FlatInstalled; an INSTALL that finishes OK gives
PreExisting when the value it installed is the firmware's and FlatInstalled otherwise; a command that does not finish OK,
and every other command, leaves it. -/
def Obligations.ModeFollowsLoadAndInstall : Prop :=
  ∀ (i : Instr) (s t : State), exec i s = .next t →
    ((∃ a0 n cpl, i = .load a0 n cpl) → FinishedOk s t → t.mode = .flatInstalled) ∧
    ((∃ a0 cpl, i = .install a0 cpl) → FinishedOk s t →
      t.mode = if t.gdtr = s.params.gdtrReset then .preExisting else .flatInstalled) ∧
    (¬FinishedOk s t → t.mode = s.mode) ∧
    (¬(∃ a0 n cpl, i = .load a0 n cpl) → ¬(∃ a0 cpl, i = .install a0 cpl) → t.mode = s.mode)

/-- The response registers (10_state.md R25): a command that completes writes RSP_STATUS, with 0x00 or one of the six
failures, and its whole next state is the same whatever RSP_STATUS held before; one that a HardwareFault abandons leaves it;
each other response register changes only by a command that finishes OK and names it. -/
def Obligations.ResponsesAreWrittenOnlyByTheirCommands : Prop :=
  ∀ (i : Instr) (s t : State), exec i s = .next t →
    (t.faultLog = s.faultLog →
      (∃ x ∈ [0x00#8, 0x11#8, 0x21#8, 0x31#8, 0x41#8, 0x51#8, 0x61#8], t.rspStatus = some x) ∧
        ∀ old : Option (BitVec 8), exec i { s with rspStatus := old } = .next t) ∧
    (t.faultLog ≠ s.faultLog → t.rspStatus = s.rspStatus) ∧
    (t.rspEntry ≠ s.rspEntry → FinishedOk s t ∧ (opcodeOf i = 0x01#8 ∨ opcodeOf i = 0x02#8)) ∧
    (t.rspFields ≠ s.rspFields → FinishedOk s t ∧ opcodeOf i = 0x03#8) ∧
    (t.rspReg ≠ s.rspReg → FinishedOk s t ∧
      (opcodeOf i = 0x07#8 ∨ opcodeOf i = 0x09#8 ∨ opcodeOf i = 0x0A#8 ∨ opcodeOf i = 0x0B#8))

/-- A command changes no byte of memory outside the range the access table gives it, and DECODE, CHKENT, TCHECK, TVIEW,
INSTALL and LOAD change none (10_state.md R29); one that does not finish OK changes none (00_scope.md R12). -/
def Obligations.MemoryIsKeptOutsideTheWriteRange : Prop :=
  ∀ (i : Instr) (s t : State), exec i s = .next t →
    KeptOutside s.mem t.mem (writeRange i s).1 (writeRange i s).2 ∧ (¬FinishedOk s t → t.mem = s.mem)

/-- What a command does depends only on its operands, the parameters, GDTR, LDTR and what memory reads as: not on MODE, on
a response register, on FAULT_LOG, or on the commands behind it (10_state.md R24, R29). From two states that agree on these
it is stuck in both, or its two next states agree on GDTR, LDTR, every byte of memory, the fault it logs, the status it
reports, and each response register and MODE that it writes; what it does not write it leaves in both. -/
def Obligations.CommandsReadOnlyRegistersAndMemory : Prop :=
  ∀ (i : Instr) (s s' : State), s.params = s'.params → s.gdtr = s'.gdtr → s.ldtr = s'.ldtr →
    (∀ a, readByte s.mem a = readByte s'.mem a) →
    (exec i s = .fault .unadmittedAccess ∧ exec i s' = .fault .unadmittedAccess) ∨
    ∃ t t', exec i s = .next t ∧ exec i s' = .next t' ∧ t.gdtr = t'.gdtr ∧ t.ldtr = t'.ldtr ∧
      (∀ a, readByte t.mem a = readByte t'.mem a) ∧ (FinishedOk s t ↔ FinishedOk s' t') ∧
      (∃ l, t.faultLog = s.faultLog ++ l ∧ t'.faultLog = s'.faultLog ++ l) ∧
      (t.faultLog = s.faultLog → t.rspStatus = t'.rspStatus) ∧
      AgreeOrKept (FinishedOk s t ∧ (opcodeOf i = 0x01#8 ∨ opcodeOf i = 0x02#8)) State.rspEntry s t s' t' ∧
      AgreeOrKept (FinishedOk s t ∧ opcodeOf i = 0x03#8) State.rspFields s t s' t' ∧
      AgreeOrKept (FinishedOk s t ∧ (opcodeOf i = 0x07#8 ∨ opcodeOf i = 0x09#8 ∨ opcodeOf i = 0x0A#8 ∨ opcodeOf i = 0x0B#8))
        State.rspReg s t s' t' ∧
      AgreeOrKept (FinishedOk s t ∧ (opcodeOf i = 0x08#8 ∨ opcodeOf i = 0x0B#8)) State.mode s t s' t'

/-- While a command leaves GDTR and writes no byte of the active table, the table and every selector's lookup stay
(70_reset_and_hazards.md R163; the lookup is log 14). -/
def Obligations.LookupStaysWhileTheActiveTableIsUntouched : Prop :=
  ∀ (i : Instr) (s t : State), exec i s = .next t → t.gdtr = s.gdtr →
    ¬OverlapsActive s (writeRange i s).1 (writeRange i s).2 →
    SameTable s.gdtr s.mem t.mem ∧ ∀ sel, observe t.gdtr t.mem sel = observe s.gdtr s.mem sel

/-! ### The invariant and reset -/

/-- Every step keeps a state legal: memory in canonical form, LDTR at its reset value, MODE and GDTR together, a checked
GDTR canonical, the response registers within what the rules let them hold, FAULT_LOG holding only faults the block
raises (10_state.md R22 to R26, 30_encoding.md R67, 42_gdtr_access.md R126, R128, 60_exceptions.md R143; memory's form is
log 6, the records' numbers log 11). -/
def Obligations.StepKeepsTheStateLegal : Prop :=
  ∀ s t : State, Legal s → step s = .next t → Legal t

/-- The machine right after reset is legal, whatever the parameters (70_reset_and_hazards.md R160). -/
def Obligations.ResetIsLegal : Prop := ∀ p : Params, Legal (State.resetWith p)

/-- Reset (70_reset_and_hazards.md R160), whatever the parameters: GDTR and LDTR hold the parameters' values, MODE is
PreExisting, each response register holds no value, so that its read faults, FAULT_LOG is empty, every byte of memory is
unknown, and the block waits for its first command. The model's own part of this: the parameters stand in the state (log 1),
the fault a read answers is called `responseNotWritten` (log 4), an unknown byte reads as the free value `unwrittenByte` (log
5), and a block that waits steps to the same state, its queue empty (log 8). -/
def Obligations.ResetLeavesTheStatedValues : Prop :=
  ∀ p : Params,
    (State.resetWith p).params = p ∧ (State.resetWith p).gdtr = p.gdtrReset ∧ (State.resetWith p).ldtr = p.ldtrReset ∧
    (State.resetWith p).mode = .preExisting ∧
    readRspStatus (State.resetWith p) = .error .responseNotWritten ∧
    readRspEntry (State.resetWith p) = .error .responseNotWritten ∧
    readRspFields (State.resetWith p) = .error .responseNotWritten ∧
    readRspReg (State.resetWith p) = .error .responseNotWritten ∧
    FaultFree (State.resetWith p) ∧ (∀ a, readByte (State.resetWith p).mem a = unwrittenByte a) ∧
    step (State.resetWith p) = .next (State.resetWith p)

/-- A response register that holds a value reads as that value, and one that holds none faults (10_state.md R25). -/
def Obligations.ResponseReadsGiveTheValueOrFault : Prop :=
  ∀ s : State,
    (∀ x, readRspStatus s = .ok x ↔ s.rspStatus = some x) ∧
    (readRspStatus s = .error .responseNotWritten ↔ s.rspStatus = none) ∧
    (∀ x, readRspEntry s = .ok x ↔ s.rspEntry = some x) ∧
    (∀ x, readRspFields s = .ok x ↔ s.rspFields = some x) ∧
    (∀ x, readRspReg s = .ok x ↔ s.rspReg = some x) ∧
    (readRspEntry s = .error .responseNotWritten ↔ s.rspEntry = none) ∧
    (readRspFields s = .error .responseNotWritten ↔ s.rspFields = none) ∧
    (readRspReg s = .error .responseNotWritten ↔ s.rspReg = none)
end

