-- ==== Sys2Proof/Laws/Bridge.lean ====
section
/-!
SUPPORT. The bridge between the wide values the meanings compute and the bytes and bits the spec speaks of
(`Sys2Proof.Safety`): one lemma per notion.
-/

namespace Sys2Proof.Machine

open Sys2Proof.Config Sys2Proof.Safety

/-! ### Bits and bytes of wide values -/

/-- Byte `j` of a wide value. -/
theorem ofNat_div_eq_extractLsb' {w : Nat} (x : BitVec w) (j : Nat) :
    BitVec.ofNat 8 (x.toNat / 256 ^ j) = x.extractLsb' (8 * j) 8 := by
  apply BitVec.eq_of_toNat_eq
  rw [BitVec.toNat_ofNat, BitVec.extractLsb'_toNat, Nat.shiftRight_eq_div_pow,
    show (256 : Nat) ^ j = 2 ^ (8 * j) by rw [pow_mul]; norm_num]

theorem memRead_zero_iff {m : Memory} {a n : Nat} : memRead m a n = 0 ↔ ∀ j < n, readByte m (a + j) = 0 := by
  constructor
  · intro h j hj
    rw [← memRead_byte m a n j hj, h]; simp
  · intro h
    induction n generalizing a with
    | zero => rfl
    | succ n ih =>
      have h0 : readByte m a = 0 := h 0 (by omega)
      have h1 : memRead m (a + 1) n = 0 := by
        apply ih; intro j hj
        rw [show a + 1 + j = a + (j + 1) by omega]; exact h (j + 1) (by omega)
      have : memRead m a (n + 1) = (readByte m a).toNat + 256 * memRead m (a + 1) n := rfl
      rw [this, h0, h1]; rfl

theorem memRead_succ (m : Memory) (a n : Nat) :
    memRead m a (n + 1) = (readByte m a).toNat + 256 * memRead m (a + 1) n := rfl

/-- A read is the reads of its two parts. -/
theorem memRead_add (m : Memory) (a b c : Nat) : memRead m a (b + c) = memRead m a b + 256 ^ b * memRead m (a + b) c := by
  induction b generalizing a with
  | zero => simp [memRead, readBytes, leValue]
  | succ b ih =>
    rw [show b + 1 + c = (b + c) + 1 by omega, memRead_succ, memRead_succ, ih,
      show a + 1 + b = a + (b + 1) by omega, pow_succ]
    ring

/-- Reading back what was written. -/
theorem memRead_memWrite_same {m : Memory} {a n v : Nat} (hv : v < 256 ^ n) : memRead (memWrite m a n v) a n = v := by
  have h : readBytes (memWrite m a n v) a n = leBytes n v := by
    apply List.ext_getElem
    · simp
    · intro k h1 h2
      have hk : k < n := by simpa using h1
      rw [readBytes_getElem, readByte_memWrite, if_pos (by omega), leBytes_getElem]
      congr 2; congr 1; omega
  rw [memRead, h, leValue_leBytes, Nat.mod_eq_of_lt hv]

/-- Byte `j` of the entry image at an address: the byte of memory, or zero past the entry. -/
theorem entryImage_byte (k : Stride) (m : Memory) (a j : Nat) :
    (entryImage k m a).extractLsb' (8 * j) 8 = if j < k.bytes then readByte m (a + j) else 0 := by
  have hlt := memRead_lt m a k.bytes
  have hb : k.bytes ≤ 12 := by cases k <;> decide
  have hfit : memRead m a k.bytes < 2 ^ 96 :=
    lt_of_lt_of_le hlt (le_trans (Nat.pow_le_pow_right (by decide) hb) (by norm_num))
  rw [← ofNat_div_eq_extractLsb', entryImage, BitVec.toNat_ofNat, Nat.mod_eq_of_lt hfit]
  split
  · next h => exact memRead_byte m a k.bytes j h
  · next h =>
    rw [Nat.div_eq_of_lt (lt_of_lt_of_le hlt (Nat.pow_le_pow_right (by decide) (by omega)))]; rfl

/-! ### Entries and tables -/

theorem entryReservedSet_iff {k : Stride} {m : Memory} {a : Nat} :
    entryReservedSet k m a = true ↔ ReservedBytesSet k m a := by
  cases k with
  | eight => simp [entryReservedSet, reservedField, ReservedBytesSet]
  | twelve =>
    have hr : memRead m a 12 = memRead m a 8 + 256 ^ 8 * memRead m (a + 8) 4 := memRead_add m a 8 4
    have h8 := memRead_lt m a 8
    have h4 := memRead_lt m (a + 8) 4
    have hx : (reservedField .twelve (entryImage .twelve m a)).toNat = memRead m (a + 8) 4 := by
      simp only [reservedField, entryImage, Stride.bytes, BitVec.extractLsb'_toNat, BitVec.toNat_ofNat, hr]
      rw [Nat.shiftRight_eq_div_pow]
      norm_num at h8 h4 ⊢
      omega
    have hz : entryReservedSet .twelve m a = true ↔ memRead m (a + 8) 4 ≠ 0 := by
      rw [← hx]
      simp [entryReservedSet, bne_iff_ne, ← BitVec.toNat_inj]
    rw [hz, Ne, memRead_zero_iff, ReservedBytesSet]
    constructor
    · intro h
      push Not at h
      obtain ⟨j, hj, hne⟩ := h
      exact ⟨rfl, 8 + j, by omega, by omega, by rwa [← Nat.add_assoc]⟩
    · rintro ⟨-, j, h1, h2, hne⟩ h
      apply hne
      have := h (j - 8) (by omega)
      rwa [show a + 8 + (j - 8) = a + j by omega] at this

theorem nullEntry_iff {k : Stride} {m : Memory} {a : Nat} : memRead m a k.bytes = 0 ↔ NullEntry k m a :=
  memRead_zero_iff

theorem someReservedSet_iff {k : Stride} {m : Memory} {a n : Nat} :
    anyReservedSet k m a (n - 1) = true ↔ SomeReservedSet k m a n := by
  rw [anyReservedSet_iff, SomeReservedSet]
  constructor
  · rintro ⟨i, h1, h2, h3⟩; exact ⟨i, h1, by omega, entryReservedSet_iff.1 h3⟩
  · rintro ⟨i, h1, h2, h3⟩; exact ⟨i, h1, by omega, entryReservedSet_iff.2 h3⟩

theorem validTable_iff {k : Stride} {m : Memory} {a n : Nat} : checkTable k m a n = none ↔ ValidTable k m a n := by
  rw [ValidTable, ← nullEntry_iff, ← someReservedSet_iff, checkTable]
  by_cases h : memRead m a k.bytes = 0
  · by_cases h2 : anyReservedSet k m a (n - 1) = true <;> simp [h, h2]
  · simp [h]

theorem sizeFits_iff {k : Stride} {n : Nat} : checkSize k n = none ↔ SizeFits k n := by
  unfold checkSize SizeFits tableLimit tableLen
  by_cases h0 : n = 0
  · simp [h0]
  · by_cases h1 : 0xFFFF < n * k.bytes - 1
    · simp [h0, h1]; omega
    · simp [h0, h1]; omega

/-! ### Register values -/

theorem unpackReg_regImage (m : Memory) (a : Nat) : unpackReg (regImage m a) = regAt m a := by
  have hr : memRead m a 10 = memRead m a 2 + 256 ^ 2 * memRead m (a + 2) 8 := memRead_add m a 2 8
  have h2 := memRead_lt m a 2
  have h8 := memRead_lt m (a + 2) 8
  norm_num at hr h2 h8
  apply RegValue.ext
  · apply BitVec.eq_of_toNat_eq
    simp only [unpackReg, regImage, regAt, regImageBytes, hr, BitVec.extractLsb'_toNat, BitVec.toNat_ofNat,
      Nat.shiftRight_eq_div_pow]
    omega
  · apply BitVec.eq_of_toNat_eq
    simp only [unpackReg, regImage, regAt, regImageBytes, hr, BitVec.extractLsb'_toNat, BitVec.toNat_ofNat,
      Nat.shiftRight_eq_div_pow]
    omega

theorem packReg_toNat (v : RegValue) : (packReg v).toNat = v.limit.toNat + 65536 * v.base.toNat := by
  have := v.limit.isLt
  rw [packReg, BitVec.toNat_append, ← Nat.shiftLeft_add_eq_or_of_lt this, Nat.shiftLeft_eq]
  omega

/-- Where a register's image has been stored, the value stands. -/
theorem regAt_of_memRead {m : Memory} {a : Nat} {v : RegValue} (h : memRead m a 10 = (packReg v).toNat) :
    regAt m a = v := by
  rw [packReg_toNat, show (10 : Nat) = 2 + 8 from rfl, memRead_add] at h
  have h1 := memRead_lt m a 2
  have h2 := memRead_lt m (a + 2) 8
  have h3 := v.limit.isLt
  have h4 := v.base.isLt
  norm_num at h h1 h2
  apply RegValue.ext <;> apply BitVec.eq_of_toNat_eq <;> simp only [regAt, BitVec.toNat_ofNat] <;> omega

/-! ### Canonical bases -/

theorem canonical_iff {vaw : Nat} {b : Addr} (h1 : 1 ≤ vaw) (h2 : vaw ≤ 64) :
    canonical vaw b = true ↔ CanonicalAddress vaw b := by
  obtain ⟨lo, rfl⟩ : ∃ lo, vaw = lo + 1 := ⟨vaw - 1, by omega⟩
  have hlo : lo < 64 := by omega
  have hb := b.isLt
  have hdiv : ∀ i, (b.toNat / 2 ^ lo).testBit i = b.getLsbD (lo + i) := by
    intro i; rw [Nat.testBit_div_two_pow, Nat.add_comm]; rfl
  have hhigh : b.toNat / 2 ^ lo < 2 ^ (64 - lo) := by
    rw [Nat.div_lt_iff_lt_mul (by positivity), ← pow_add, Nat.sub_add_cancel hlo.le]; exact hb
  simp only [canonical, CanonicalAddress, Nat.add_sub_cancel, Bool.or_eq_true, beq_iff_eq]
  constructor
  · rintro (h | h)
    · left; intro i hi _
      have := hdiv (i - lo)
      rw [h, Nat.zero_testBit, show lo + (i - lo) = i by omega] at this
      exact this.symm
    · right; intro i hi hi2
      have := hdiv (i - lo)
      rw [h, Nat.testBit_two_pow_sub_one, show lo + (i - lo) = i by omega] at this
      rw [← this]; simp; omega
  · rintro (h | h)
    · left
      apply Nat.eq_of_testBit_eq; intro i
      rw [hdiv, Nat.zero_testBit]
      by_cases hi : lo + i < 64
      · exact h _ (by omega) hi
      · exact BitVec.getLsbD_of_ge _ _ (by omega)
    · right
      apply Nat.eq_of_testBit_eq; intro i
      rw [hdiv, Nat.testBit_two_pow_sub_one]
      by_cases hi : lo + i < 64
      · rw [h _ (by omega) hi]; simp; omega
      · rw [BitVec.getLsbD_of_ge _ _ (by omega)]; simp; omega

theorem baseAccepted_iff {p : Params} {b : Addr} : baseRefused p b = false ↔ BaseAccepted p b := by
  have h := canonical_iff (vaw := p.vaw) (b := b) (by simp [Params.vaw]; omega)
    (by have := p.vawOver32.isLt; simp only [Params.vaw]; omega)
  rw [BaseAccepted, ← h]
  cases hc : p.checkCanonicalBase <;> cases hk : canonical p.vaw b <;> simp [baseRefused, hc, hk]

theorem baseRefused_iff {p : Params} {b : Addr} : baseRefused p b = true ↔ ¬BaseAccepted p b := by
  rw [← baseAccepted_iff]; simp

end Sys2Proof.Machine
end

