-- ==== Sys2Proof/Tests/Slice0.lean ====
section
/-!
SUPPORT. Tests, and one witness for each hypothesis of a statement.

The expected values are the vectors of spec/95_test_vectors.md, named in each test's comment, or bytes written out by hand
from the record layout (log 7). A witness theorem shows a state and operands that meet a statement's hypotheses.
-/

open Sys2Proof Sys2Proof.Config Sys2Proof.Machine Sys2Proof.Safety

namespace Sys2Proof.Tests

/-! ### WellFormed: one ill-formed term for each check -/

/-- A well-formed record, changed below in one field at a time. -/
def tcheckRecord : CommandRecord := Sys2Proof.encode (.tcheck 0x1000 3)

theorem test_wellFormed_accepts : tcheckRecord.wellFormed = true := by decide
theorem test_wellFormed_refuses_op_0x00 : { tcheckRecord with op := 0x00 }.wellFormed = false := by decide
theorem test_wellFormed_refuses_op_0x0C : { tcheckRecord with op := 0x0C }.wellFormed = false := by decide
theorem test_wellFormed_refuses_unused_a1 : { tcheckRecord with a1 := 1 }.wellFormed = false := by decide
theorem test_wellFormed_refuses_unused_n :
    { Sys2Proof.encode (.decode 0x1000) with n := 1 }.wellFormed = false := by decide
theorem test_wellFormed_refuses_unused_f :
    { tcheckRecord with f := { FieldRecord.zero with p := 1 } }.wellFormed = false := by decide
theorem test_wellFormed_refuses_unused_sp :
    { tcheckRecord with sp := { SegParams.zero with p := 1 } }.wellFormed = false := by decide
theorem test_number_too_wide : numberFits 20 0x100000 = false := by decide
theorem test_number_fits : numberFits 20 0xFFFFF = true := by decide

/-! ### Decoding: a record written out for every command

Bytes: op, a0 (8), a1 (8), n (4), cpl, f (8, 4, 2, 4), sp (8, 4, 1), each little-endian (log 7). -/

/-- `n` zero bytes. -/
abbrev zeros (n : Nat) : List Byte := List.replicate n 0#8

/-- The bytes of a record from `op` to `a0` = 0x1000. -/
abbrev opAt1000 (op : Byte) : List Byte := [op, 0x00, 0x10, 0, 0, 0, 0, 0, 0]

/-- V5 (95_test_vectors.md): the fields of the entry `DE BC 78 56 34 D5 5A 12`. -/
def v5Fields : FieldRecord :=
  { base := 0x12345678, limit := 0xABCDE, g := 0, db := 1, l := 0, avl := 1, p := 1, dpl := 2, s := 1, e := 0, dc := 1,
    rw := 0, a := 1, rsv := 0 }

/-- The flags of V5, from bit 0 up: G 0, DB 1, L 0, AVL 1, P 1, DPL 10, S 1, E 0, DC 1, RW 0, A 1: 0xADA. -/
theorem test_decode_encode :
    decodeBytes (opAt1000 0x01 ++ zeros 13 ++ [0x78, 0x56, 0x34, 0x12, 0, 0, 0, 0, 0xDE, 0xBC, 0x0A, 0x00, 0xDA, 0x0A] ++
      zeros 4 ++ zeros 13) = .ok (.encode 0x1000 v5Fields, []) := by decide

/-- FLATCODE64 with DPL 3 (30_encoding.md R72): G 1, DB 0, L 1, DPL 11, kind 1, P 1: 0x7D. -/
def flatCode64Ring3 : SegParams :=
  { base := 0, limit := 0xFFFFF, g := 1, db := 0, l := 1, dpl := 3, kind := 1, p := 1 }

theorem test_decode_encseg :
    decodeBytes (opAt1000 0x02 ++ zeros 13 ++ zeros 18 ++ zeros 8 ++ [0xFF, 0xFF, 0x0F, 0x00, 0x7D]) =
      .ok (.encseg 0x1000 flatCode64Ring3, []) := by decide
theorem test_decode_decode : decodeBytes (opAt1000 0x03 ++ zeros 44) = .ok (.decode 0x1000, []) := by decide
theorem test_decode_chkent : decodeBytes (opAt1000 0x04 ++ zeros 44) = .ok (.chkent 0x1000, []) := by decide
theorem test_decode_tbuild :
    decodeBytes (opAt1000 0x05 ++ [0x00, 0x20, 0, 0, 0, 0, 0, 0x80, 0x03, 0, 0, 0x40] ++ zeros 32) =
      .ok (.tbuild 0x1000 0x8000000000002000 0x40000003, []) := by decide
theorem test_decode_tcheck :
    decodeBytes (opAt1000 0x06 ++ zeros 8 ++ [0x03, 0, 0, 0] ++ zeros 32) = .ok (.tcheck 0x1000 3, []) := by decide
theorem test_decode_tview :
    decodeBytes (opAt1000 0x07 ++ zeros 8 ++ [0x02, 0x01, 0, 0] ++ zeros 32) = .ok (.tview 0x1000 0x102, []) := by decide
theorem test_decode_install :
    decodeBytes (opAt1000 0x08 ++ zeros 12 ++ [0x03] ++ zeros 31) = .ok (.install 0x1000 3, []) := by decide
theorem test_decode_capture :
    decodeBytes (opAt1000 0x09 ++ zeros 12 ++ [0x02] ++ zeros 31) = .ok (.capture 0x1000 2, []) := by decide
theorem test_decode_capldt :
    decodeBytes (opAt1000 0x0A ++ zeros 12 ++ [0x01] ++ zeros 31) = .ok (.capldt 0x1000 1, []) := by decide
theorem test_decode_load :
    decodeBytes (opAt1000 0x0B ++ zeros 8 ++ [0x03, 0, 0, 0, 0x03] ++ zeros 31) = .ok (.load 0x1000 3 3, []) := by decide
/-- A table word of 8 bits is the opcode byte alone; every bit above it is zero. -/
theorem test_decode_table_word : decodeTableWord 8 0x0B = some (.load 0 0 0) := by decide
theorem test_decode_table_word_reserved : decodeTableWord 8 0x0C = none := by decide

/-! ### The assembler (30_encoding.md R71, R72) -/

/-- Line 1 of program P1. -/
theorem test_assemble_flatseg :
    assemble "FLATSEG 0x200C, code, 0" = some (Sys2Proof.encode
      (.encseg 0x200C { base := 0, limit := 0xFFFFF, g := 1, db := 1, l := 0, dpl := 0, kind := 1, p := 1 })) := by decide
/-- Line 2 of program P3. -/
theorem test_assemble_load_ring3 :
    assemble "  LOAD 0x1000,3 @3 ; validated first" = some (Sys2Proof.encode (.load 0x1000 3 3)) := by decide
theorem test_assemble_refuses_wide_ring : assemble "LOAD 0x1000, 3 @4" = none := by decide

/-! ### States for the step tests -/

/-- Reset at a stride. -/
def start (k : Stride) : State := State.resetWith { namedParams with stride := k }

/-- A state with some bytes stored at an address. -/
def storing (a : Nat) (bs : List Byte) (s : State) : State := s.setMem (writeBytes s.mem a bs)

/-- What one reads of the next state, if there is one. -/
def after {α : Type} (o : Result) (f : State → α) : Option α :=
  match o with
  | .next t => some (f t)
  | .fault _ => none
  | .refused _ => none

/-- V1 (95_test_vectors.md), flat ring-0 code, its first eight bytes. -/
abbrev v1Bytes : List Byte := [0xFF, 0xFF, 0x00, 0x00, 0x00, 0x9A, 0xCF, 0x00]
/-- V2, flat ring-0 data, its first eight bytes. -/
abbrev v2Bytes : List Byte := [0xFF, 0xFF, 0x00, 0x00, 0x00, 0x92, 0xCF, 0x00]
/-- The fields of V1. -/
def v1Fields : FieldRecord :=
  { base := 0, limit := 0xFFFFF, g := 1, db := 1, l := 0, avl := 0, p := 1, dpl := 0, s := 1, e := 1, dc := 0, rw := 1,
    a := 0, rsv := 0 }
/-- The table of T6 at 0x1000, stride 12. -/
def withTable : State := storing 0x1000 (zeros 12 ++ v1Bytes ++ zeros 4 ++ v2Bytes ++ zeros 4) (start .twelve)
/-- The source of T6 at 0x2000: slot 0 holds nonzero bytes. -/
def withSource : State :=
  storing 0x2000 (List.replicate 12 0xFF#8 ++ v1Bytes ++ zeros 4 ++ v2Bytes ++ zeros 4) (start .twelve)
/-- The register image of G1 at 0x3000. -/
def withImage : State := storing 0x3000 [0x23, 0, 0, 0x10, 0, 0, 0, 0, 0, 0] (start .twelve)
/-- GDTR of G7. -/
def gdtrG7 : RegValue := { limit := 0x0023, base := 0x1000 }

/-! ### One step of each command -/

/-- V5. -/
theorem test_encode_v5 :
    after (exec (.encode 0x4000 v5Fields) (start .twelve)) (fun t => (readBytes t.mem 0x4000 12, t.rspEntry, t.rspStatus)) =
      some ([0xDE, 0xBC, 0x78, 0x56, 0x34, 0xD5, 0x5A, 0x12, 0, 0, 0, 0], some 0x125AD5345678BCDE, some 0x00) := by decide
/-- VF6: every check fails, and the limit's is reported. -/
theorem test_encode_vf6 :
    after (exec (.encode 0x4000 { v1Fields with base := 0x100000000, limit := 0x100000, rsv := 1 }) (start .eight))
      (fun t => (t.mem, t.rspEntry, t.rspStatus)) = some ([], none, some 0x11) := by decide
/-- FLATCODE64 (V3) with DPL 3: the access byte is 0xFA. -/
theorem test_encseg_flatcode64 :
    after (exec (.encseg 0x4000 flatCode64Ring3) (start .eight)) (fun t => (t.mem, t.rspStatus)) =
      some ([(0x4000, 0xFF), (0x4001, 0xFF), (0x4002, 0), (0x4003, 0), (0x4004, 0), (0x4005, 0xFA), (0x4006, 0xAF),
        (0x4007, 0)], some 0x00) := by decide
/-- VF9. -/
theorem test_encseg_vf9 :
    after (exec (.encseg 0x4000 { flatCode64Ring3 with base := 0xFFFFFFFFFFFFFFFF, limit := 0 }) (start .twelve))
      (fun t => (t.mem, t.rspStatus)) = some ([], some 0x21) := by decide
/-- VD2. -/
theorem test_decode_vd2 :
    after (exec (.decode 0x4000)
      (storing 0x4000 ([0xDE, 0xBC, 0x78, 0x56, 0x34, 0xD5, 0x5A, 0x12] ++ zeros 4) (start .twelve)))
      (fun t => (t.rspFields, t.rspStatus)) = some (some v5Fields, some 0x00) := by decide
/-- VD3. -/
theorem test_decode_vd3 :
    after (exec (.decode 0x4000) (storing 0x4000 (v1Bytes ++ [0x01, 0, 0, 0]) (start .twelve)))
      (fun t => (t.rspFields, t.rspStatus)) = some (none, some 0x31) := by decide
/-- VD5: the top bit of the reserved field. -/
theorem test_chkent_vd5 :
    after (exec (.chkent 0x4000) (storing 0x4000 (v1Bytes ++ [0, 0, 0, 0x80]) (start .twelve))) State.rspStatus =
      some (some 0x31) := by decide
/-- VD7, on the bytes of V1: at stride 8 the bytes above are no part of the entry. -/
theorem test_chkent_vd7 :
    after (exec (.chkent 0x4000) (storing 0x4000 (v1Bytes ++ [1, 0, 0, 0]) (start .eight))) State.rspStatus =
      some (some 0x00) := by decide
/-- T6: slot 0 is forced null, the other slots copied. -/
theorem test_tbuild_t6 :
    after (exec (.tbuild 0x1000 0x2000 3) withSource) (fun t => (readBytes t.mem 0x1000 36, t.rspStatus)) =
      some (zeros 12 ++ v1Bytes ++ zeros 4 ++ v2Bytes ++ zeros 4, some 0x00) := by decide
/-- T7: nothing is written. -/
theorem test_tbuild_t7 :
    after (exec (.tbuild 0x1000 0x2000 3) (storing 0x2020 [0x01] withSource))
      (fun t => (Memory.get? t.mem 0x1000, t.rspStatus)) = some (none, some 0x31) := by decide
/-- T15. -/
theorem test_tcheck_t15 : after (exec (.tcheck 0x1000 3) withTable) State.rspStatus = some (some 0x00) := by decide
/-- T19: both faults, and the null check comes first. -/
theorem test_tcheck_t19 :
    after (exec (.tcheck 0x1000 3) (storing 0x1014 [0x01] (storing 0x1005 [0x9A] withTable))) State.rspStatus =
      some (some 0x61) := by decide
/-- T13: the base is a value, and no memory is read. -/
theorem test_tview_t13 :
    after (exec (.tview 0xFFFF800000000000 2) (start .twelve)) (fun t => (t.rspReg, t.rspStatus)) =
      some (some 0xFFFF8000000000000017, some 0x00) := by decide
/-- T14. -/
theorem test_tview_t14 :
    after (exec (.tview 0x1000 0) (start .twelve)) (fun t => (t.rspReg, t.rspStatus)) = some (none, some 0x41) := by decide
/-- G1. -/
theorem test_install_g1 :
    after (exec (.install 0x3000 0) withImage) (fun t => (t.gdtr, t.mode, t.rspStatus, t.faultLog)) =
      some (gdtrG7, .flatInstalled, some 0x00, []) := by decide
/-- G3: nothing changes but FAULT_LOG. -/
theorem test_install_g3 :
    exec (.install 0x3000 3) withImage = .next { withImage with faultLog := [⟨0x08, 3, 13, 0⟩] } := by rfl
/-- G7. -/
theorem test_capture_g7 :
    after (exec (.capture 0x3000 0) ((start .twelve).setGdtr gdtrG7)) (fun t => (readBytes t.mem 0x3000 10, t.rspReg)) =
      some ([0x23, 0, 0, 0x10, 0, 0, 0, 0, 0, 0], some 0x00000000000010000023) := by decide
/-- G8 with `CAPTURE_PRIVILEGED` true. -/
theorem test_capture_g8 :
    after (exec (.capture 0x3000 3) (State.resetWith { namedParams with capturePrivileged := true }))
      (fun t => (t.mem, t.faultLog)) = some ([], [⟨0x09, 3, 13, 0⟩]) := by decide
/-- G10. -/
theorem test_capldt_g10 :
    after (exec (.capldt 0x3020 0) (start .twelve)) (fun t => (readBytes t.mem 0x3020 10, t.rspReg, t.rspStatus)) =
      some (zeros 10, some 0, some 0x00) := by decide
/-- A CAPLDT stores LDTR and not GDTR. -/
theorem test_capldt_reads_ldtr :
    after (exec (.capldt 0x3020 3) (State.resetWith { namedParams with ldtrReset := ⟨0x0102, 0x0304050607080910⟩ }))
      (fun t => readBytes t.mem 0x3020 10) =
      some [0x02, 0x01, 0x10, 0x09, 0x08, 0x07, 0x06, 0x05, 0x04, 0x03] := by decide
/-- G11. -/
theorem test_load_g11 :
    after (exec (.load 0x1000 3 0) withTable) (fun t => (t.gdtr, t.mode, t.rspReg, t.rspStatus)) =
      some (gdtrG7, .flatInstalled, some 0x00000000000010000023, some 0x00) := by decide
/-- G13: the table is valid, and the ring is not 0. -/
theorem test_load_g13 :
    after (exec (.load 0x1000 3 3) withTable) (fun t => (t.gdtr, t.mode, t.rspReg, t.faultLog)) =
      some ((start .twelve).gdtr, .preExisting, none, [⟨0x0B, 3, 13, 0⟩]) := by decide
/-- X2: a reserved opcode at ring 3, as a step. -/
theorem test_step_x2 :
    after (step ((start .twelve).withFetchWord 8 0x0C)) (fun t => (t.rspStatus, t.faultLog)) = some (some 0x02, []) := by
  decide
/-- A step runs the command of a fetched word: TCHECK of no entries (T20). -/
theorem test_step_fetches :
    after (step ((start .twelve).withFetchWord 8 0x06)) (fun t => (t.rspStatus, t.pending)) = some (some 0x41, []) := by
  decide

/-! ### What no command computes -/

/-- The last row of the effective-limit table (40_entry_codec.md R82). -/
theorem test_effLimit : effLimit 0x12345 1 = 0x12345FFF ∧ segSize 0x12345 1 = 0x12346000 := by decide
/-- The processor's view of the stride-12 table of T6: index 2 is entry 1's bytes 4..11, and index 4 is past the limit. -/
theorem test_observe_stride_twelve :
    observe gdtrG7 withTable.mem 0x0010 = .descriptor 0x0000000000CF9A00 ∧
      observe gdtrG7 withTable.mem 0x0020 = .gpFault ∧ observe gdtrG7 withTable.mem 0x0003 = .null := by decide

/-! ### Witnesses: states and operands that meet the hypotheses of each statement

`witness_<statement>` and, where a statement has several clauses, one more name for the clause. -/

/-- The next state of a command that has one. -/
def nextOf (o : Result) (s : State) : State :=
  match o with
  | .next t => t
  | .fault _ => s
  | .refused _ => s

theorem witness_EncodeGivesBackWellFormedRecord :
    { tcheckRecord with cpl := 3 }.wellFormed = true ∧
      decodeRecord { tcheckRecord with cpl := 3 } = .ok (.tcheck 0x1000 3) := by decide

/-- Two TCHECK records that differ in every field TCHECK does not use. -/
theorem witness_UnusedFieldsAreIgnored :
    ∃ r r' : CommandRecord, r.a1 ≠ r'.a1 ∧ r.cpl ≠ r'.cpl ∧ r.f ≠ r'.f ∧ r.sp ≠ r'.sp ∧ r.op = r'.op ∧
      (r.opAssigned = true → r.a0 = r'.a0) ∧ (usesA1 r.op = true → r.a1 = r'.a1) ∧ (usesN r.op = true → r.n = r'.n) ∧
      (usesCpl r.op = true → r.cpl = r'.cpl) ∧ (usesF r.op = true → r.f = r'.f) ∧ (usesSp r.op = true → r.sp = r'.sp) :=
  ⟨tcheckRecord, { tcheckRecord with a1 := 1, cpl := 3, f := v5Fields, sp := flatCode64Ring3 }, by decide⟩

/-- Both ends of each range of reserved opcodes. -/
theorem witness_ReservedOpcodeIsIllegalCommand :
    ∀ op ∈ [0x00#8, 0x0C#8, 0xFF#8],
      ((start .twelve).setPending [{ tcheckRecord with op := op }]).pending = { tcheckRecord with op := op } :: [] ∧
        (({ tcheckRecord with op := op } : CommandRecord).op = 0x00#8 ∨
          0x0C ≤ ({ tcheckRecord with op := op } : CommandRecord).op.toNat) := by decide

/-- Both ends of the range of assigned opcodes. -/
theorem witness_ReservedOpcodeIsIllegalCommand_assigned :
    ∀ op ∈ [0x01#8, 0x0B#8], 1 ≤ ({ tcheckRecord with op := op } : CommandRecord).op.toNat ∧
      ({ tcheckRecord with op := op } : CommandRecord).op.toNat ≤ 0x0B := by decide

theorem witness_StepRunsTheDecodedCommand :
    ((start .twelve).setPending [tcheckRecord]).pending = tcheckRecord :: [] ∧
      decodeRecord tcheckRecord = .ok (.tcheck 0x1000 3) := by decide
theorem witness_StepRunsTheDecodedCommand_waits : (start .twelve).pending = [] := by decide

theorem witness_AssemblerWritesUnusedFieldsZero :
    assembleLine { mnemonic := .load, operands := [.num 0x1000, .num 3], cpl := 3 } =
      some (Sys2Proof.encode (.load 0x1000 3 3)) := by decide

/-- The largest legal limit and base. -/
def topFields : FieldRecord := { v1Fields with base := 0xFFFFFFFF, limit := 0xFFFFF }

theorem witness_PackAndUnpackEntryAreInverse : checkFields topFields = none := by decide
theorem witness_PackAndUnpackEntryAreInverse_image : (0xFFFFFFFFFFFFFFFF#96).extractLsb' 64 32 = 0 := by decide

/-! The entry codec: the first value past each limit, the last one within it, and the highest admitted address. -/

theorem witness_Encode_limit : 0xFFFFF < ({ topFields with limit := 0x100000 } : FieldRecord).limit.toNat := by decide
theorem witness_Encode_base :
    ({ topFields with base := 0x100000000 } : FieldRecord).limit.toNat ≤ 0xFFFFF ∧
      0xFFFFFFFF < ({ topFields with base := 0x100000000 } : FieldRecord).base.toNat := by decide
theorem witness_Encode_reserved :
    ({ topFields with rsv := 1 } : FieldRecord).limit.toNat ≤ 0xFFFFF ∧
      ({ topFields with rsv := 1 } : FieldRecord).base.toNat ≤ 0xFFFFFFFF ∧
      ({ topFields with rsv := 1 } : FieldRecord).rsv ≠ 0 := by decide
theorem witness_Encode_completes :
    topFields.limit.toNat ≤ 0xFFFFF ∧ topFields.base.toNat ≤ 0xFFFFFFFF ∧ topFields.rsv = 0 ∧
      admitted (start .twelve).params (0xFFFFFFFFFFFFFFF4#64).toNat 12 = true ∧
      admitted (start .eight).params (0xFFFFFFFFFFFFFFF8#64).toNat 8 = true := by decide

/-- Segment parameters with the largest legal limit and base. -/
def topSeg : SegParams := { flatCode64Ring3 with base := 0xFFFFFFFF }

theorem witness_Encseg_limit : 0xFFFFF < ({ topSeg with limit := 0x100000 } : SegParams).limit.toNat := by decide
theorem witness_Encseg_base :
    ({ topSeg with base := 0x100000000 } : SegParams).limit.toNat ≤ 0xFFFFF ∧
      0xFFFFFFFF < ({ topSeg with base := 0x100000000 } : SegParams).base.toNat := by decide
theorem witness_Encseg_completes :
    topSeg.limit.toNat ≤ 0xFFFFF ∧ topSeg.base.toNat ≤ 0xFFFFFFFF ∧
      admitted (start .twelve).params (0xFFFFFFFFFFFFFFF4#64).toNat (start .twelve).params.stride.bytes = true := by decide

/-- An entry of V1 with the top bit of its reserved field set. -/
def withReserved : State := storing 0x4000 (v1Bytes ++ [0, 0, 0, 0x80]) (start .twelve)
/-- The entry V1. -/
def withEntryV1 : State := storing 0x4000 (v1Bytes ++ zeros 4) (start .twelve)

theorem witness_Decode_Chkent_reserved :
    admitted withReserved.params 0x4000 withReserved.params.stride.bytes = true ∧
      ReservedBytesSet withReserved.params.stride withReserved.mem 0x4000 :=
  ⟨by decide, entryReservedSet_iff.1 (by decide)⟩
theorem witness_Decode_Chkent_completes :
    admitted withEntryV1.params 0x4000 withEntryV1.params.stride.bytes = true ∧
      ¬ReservedBytesSet withEntryV1.params.stride withEntryV1.mem 0x4000 :=
  ⟨by decide, mt entryReservedSet_iff.2 (by decide)⟩
theorem witness_Chkent_stride_eight :
    admitted (start .eight).params 0x4000 (start .eight).params.stride.bytes = true ∧
      (start .eight).params.stride = .eight := by decide
theorem witness_DecodeAfterEncodeGivesTheFieldsBack :
    checkFields v5Fields = none ∧ admitted (start .twelve).params 0x4000 (start .twelve).params.stride.bytes = true := by
  decide

/-! Tables: no entry, the most entries and one more, at each stride. -/

theorem witness_size_too_large :
    (5462#32 ≠ 0 ∧ 0xFFFF < (5462#32).toNat * (start .twelve).params.stride.bytes - 1) ∧
      (8193#32 ≠ 0 ∧ 0xFFFF < (8193#32).toNat * (start .eight).params.stride.bytes - 1) := by decide
theorem witness_size_fits :
    SizeFits (start .twelve).params.stride (1#32).toNat ∧ SizeFits (start .twelve).params.stride (5461#32).toNat ∧
      SizeFits (start .eight).params.stride (8192#32).toNat :=
  ⟨⟨by decide, by decide⟩, ⟨by decide, by decide⟩, ⟨by decide, by decide⟩⟩

/-- The whole address space is admitted. -/
theorem start_admits (k : Stride) (a n : Nat) (h : a + n ≤ 2 ^ 64) : admitted (start k).params a n = true :=
  admitted_of_region (r := { base := 0, size := 2 ^ 64 }) (by simp [start, namedParams]) (Nat.zero_le a) (by simpa using h) h

/-- T2: the largest table at stride 12 can be admitted. -/
theorem witness_Tbuild_largest :
    SizeFits (start .twelve).params.stride (5461#32).toNat ∧
      admitted (start .twelve).params ((0x2000#64).toNat + 12) (((5461#32).toNat - 1) * 12) = true ∧
      admitted (start .twelve).params (0x1000#64).toNat ((5461#32).toNat * 12) = true :=
  ⟨⟨by decide, by decide⟩, start_admits _ _ _ (by decide), start_admits _ _ _ (by decide)⟩

/-- T7: the last entry of the source has its reserved bytes set. -/
def withBadSource : State := storing 0x2023 [0x01] withSource

theorem witness_Tbuild_reserved :
    SizeFits withBadSource.params.stride 3 ∧
      admitted withBadSource.params (0x2000 + withBadSource.params.stride.bytes)
        ((3 - 1) * withBadSource.params.stride.bytes) = true ∧
      SomeReservedSet withBadSource.params.stride withBadSource.mem 0x2000 3 :=
  ⟨⟨by decide, by decide⟩, by decide, someReservedSet_iff.1 (by decide)⟩
theorem witness_Tbuild_completes :
    SizeFits withSource.params.stride 3 ∧
      admitted withSource.params (0x2000 + withSource.params.stride.bytes) ((3 - 1) * withSource.params.stride.bytes) = true ∧
      ¬SomeReservedSet withSource.params.stride withSource.mem 0x2000 3 ∧
      admitted withSource.params 0x1000 (3 * withSource.params.stride.bytes) = true :=
  ⟨⟨by decide, by decide⟩, by decide, mt someReservedSet_iff.2 (by decide), by decide⟩

/-- T17: the last byte of entry 0 is not zero. -/
def withBadNull : State := storing 0x100B [0x01] withTable
/-- The last byte of the last entry is not zero. -/
def withBadEntry : State := storing 0x1023 [0x01] withTable

theorem witness_Tcheck_Load_null :
    SizeFits withBadNull.params.stride 3 ∧ admitted withBadNull.params 0x1000 (3 * withBadNull.params.stride.bytes) = true ∧
      ¬NullEntry withBadNull.params.stride withBadNull.mem 0x1000 :=
  ⟨⟨by decide, by decide⟩, by decide, mt nullEntry_iff.2 (by decide)⟩
theorem witness_Tcheck_Load_reserved :
    SizeFits withBadEntry.params.stride 3 ∧
      admitted withBadEntry.params 0x1000 (3 * withBadEntry.params.stride.bytes) = true ∧
      NullEntry withBadEntry.params.stride withBadEntry.mem 0x1000 ∧
      SomeReservedSet withBadEntry.params.stride withBadEntry.mem 0x1000 3 :=
  ⟨⟨by decide, by decide⟩, by decide, nullEntry_iff.1 (by decide), someReservedSet_iff.1 (by decide)⟩
theorem witness_Tcheck_Load_valid :
    SizeFits withTable.params.stride 3 ∧ admitted withTable.params 0x1000 (3 * withTable.params.stride.bytes) = true ∧
      ValidTable withTable.params.stride withTable.mem 0x1000 3 :=
  ⟨⟨by decide, by decide⟩, by decide, validTable_iff.1 (by decide)⟩

/-- The built table, read in a later state whose GDTR has changed. -/
theorem witness_BuiltTablePassesTcheckUntilWritten :
    ∃ t u : State, exec (.tbuild 0x1000 0x2000 3) withSource = .next t ∧ FinishedOk withSource t ∧ u ≠ t ∧
      u.params = t.params ∧
      (∀ j < (3#32).toNat * withSource.params.stride.bytes,
        readByte u.mem ((0x1000#64).toNat + j) = readByte t.mem ((0x1000#64).toNat + j)) := by
  refine ⟨_, (nextOf (exec (.tbuild 0x1000 0x2000 3) withSource) withSource).setGdtr gdtrG7, rfl, ⟨rfl, rfl⟩, ?_, rfl,
    fun _ _ => rfl⟩
  intro h
  exact absurd (congrArg (fun s : State => s.gdtr) h) (by decide)

theorem witness_TableCommandsAgreeOnSize :
    ((0#32 = 0 ∧ 0x41#8 = 0x41#8) ∨
        (0#32 ≠ 0 ∧ 0xFFFF < (0#32).toNat * (start .twelve).params.stride.bytes - 1 ∧ 0x41#8 = 0x51#8)) ∧
      ((0xFFFFFFFF#32 = 0 ∧ 0x51#8 = 0x41#8) ∨
        (0xFFFFFFFF#32 ≠ 0 ∧ 0xFFFF < (0xFFFFFFFF#32).toNat * (start .eight).params.stride.bytes - 1 ∧
          0x51#8 = 0x51#8)) := by decide
/-- The largest counts that fit, and the smallest. -/
theorem witness_TableCommandsAgreeOnSize_fits :
    (SizeFits (start .twelve).params.stride (5461#32).toNat ∧ SizeFits (start .eight).params.stride (8192#32).toNat ∧
        SizeFits (start .twelve).params.stride (1#32).toNat) ∧
      (0x41#8 = 0x41#8 ∨ 0x41#8 = 0x51#8) ∧ (0x51#8 = 0x41#8 ∨ 0x51#8 = 0x51#8) :=
  ⟨⟨⟨by decide, by decide⟩, ⟨by decide, by decide⟩, ⟨by decide, by decide⟩⟩, by decide, by decide⟩

theorem witness_SizeCheckPassesUpToMaxEntries :
    (start .twelve).params.stride = .twelve ∧ (start .eight).params.stride = .eight := by decide

/-! Register access. -/

/-- The canonical check is on, at VAW 48. -/
def checking : State := State.resetWith { namedParams with checkCanonicalBase := true }
/-- G18: an image with the base 0xFFFF7FFFFFFFFFFF. -/
def withBadBase : State := storing 0x3000 [0x23, 0, 0xFF, 0xFF, 0xFF, 0xFF, 0xFF, 0x7F, 0xFF, 0xFF] checking
/-- An image with the lowest canonical base of the upper half, 0xFFFF800000000000. -/
def withGoodBase : State := storing 0x3000 [0x23, 0, 0, 0, 0, 0, 0, 0x80, 0xFF, 0xFF] checking

theorem witness_Install_ring : (1#2 : BitVec 2) ≠ 0 := by decide
theorem witness_Install_refused :
    admitted withBadBase.params 0x3000 10 = true ∧
      ¬BaseAccepted withBadBase.params (regAt withBadBase.mem 0x3000).base :=
  ⟨by decide, baseRefused_iff.1 (by decide)⟩
theorem witness_Install_completes :
    admitted withGoodBase.params 0x3000 10 = true ∧
      BaseAccepted withGoodBase.params (regAt withGoodBase.mem 0x3000).base ∧
      admitted withImage.params 0x3000 10 = true ∧ BaseAccepted withImage.params (regAt withImage.mem 0x3000).base :=
  ⟨by decide, baseAccepted_iff.1 (by decide), by decide, .inl rfl⟩

/-- The captures are privileged. -/
def privileged : State := State.resetWith { namedParams with capturePrivileged := true }

theorem witness_Captures_fault : privileged.params.capturePrivileged = true ∧ (1#2 : BitVec 2) ≠ 0 := by decide
/-- Ring 3 when the captures are open, ring 0 when they are not, at the highest address. -/
theorem witness_Captures_complete :
    (¬((start .twelve).params.capturePrivileged = true ∧ (3#2 : BitVec 2) ≠ 0) ∧
        admitted (start .twelve).params (0xFFFFFFFFFFFFFFF6#64).toNat 10 = true) ∧
      (¬(privileged.params.capturePrivileged = true ∧ (0#2 : BitVec 2) ≠ 0) ∧
        admitted privileged.params (0x3000#64).toNat 10 = true) := by decide
theorem witness_Captures_forms :
    (Instr.capture 0x3000 3 = .capture 0x3000 3 ∧ (start .twelve).gdtr = (start .twelve).gdtr ∧ 0x09#8 = 0x09#8) ∧
      (Instr.capldt 0x3000 3 = .capldt 0x3000 3 ∧ (start .twelve).ldtr = (start .twelve).ldtr ∧ 0x0A#8 = 0x0A#8) := by
  decide

/-- G16: the lowest base that is not canonical. -/
theorem witness_Load_refused : ¬BaseAccepted checking.params 0x0000800000000000 := baseRefused_iff.1 (by decide)
/-- The valid table of `witness_Tcheck_Load_valid` at ring 0, the check off; and G17's base, the check on. -/
theorem witness_Load_completes :
    BaseAccepted withTable.params 0x1000 ∧ BaseAccepted checking.params 0xFFFF800000000000 :=
  ⟨.inl rfl, baseAccepted_iff.1 (by decide)⟩

/-- GDTR of G7, nothing stored. -/
def atG7 : State := (start .twelve).setGdtr gdtrG7
/-- The state after a CAPTURE at 0x1024, the first byte past the active table. -/
def captured : State := nextOf (exec (.capture 0x1024 0) atG7) atG7
/-- A later state that has gone back to another GDTR. -/
def later : State := captured.setGdtr { limit := 0, base := 0 }

theorem witness_CaptureThenInstallRestoresGdtr :
    exec (.capture 0x1024 0) atG7 = .next captured ∧ FinishedOk atG7 captured ∧
      (∀ j < 10, readByte later.mem ((0x1024#64).toNat + j) = readByte captured.mem ((0x1024#64).toNat + j)) ∧
      ∃ v, exec (.install 0x1024 0) later = .next v ∧ FinishedOk later v :=
  ⟨rfl, ⟨rfl, rfl⟩, fun _ _ => rfl, _, rfl, rfl, rfl⟩
theorem witness_CaptureThenInstallRestoresGdtr_completes : BaseAccepted atG7.params atG7.gdtr.base := .inl rfl
theorem witness_CaptureThenInstallRestoresGdtr_lookup :
    (∃ v, exec (.install 0x1024 0) captured = .next v ∧ FinishedOk captured v) ∧
      ¬OverlapsActive atG7 (0x1024#64).toNat 10 := by
  refine ⟨⟨_, rfl, rfl, rfl⟩, ?_⟩
  rintro ⟨x, ⟨_, h1⟩, h2, _⟩
  have h3 : x ≤ 0x1023 := h1
  have h4 : 0x1024 ≤ x := h2
  omega

/-- Program P2, with the two images side by side. -/
theorem witness_SaveLoadRestoreGivesBackTheFirmwareValue :
    withTable.gdtr = withTable.params.gdtrReset ∧ (0x3000#64).toNat + 10 ≤ (0x300A#64).toNat ∧
      ∃ s1 s2 s3 s4, exec (.capture 0x3000 0) withTable = .next s1 ∧ FinishedOk withTable s1 ∧
        exec (.load 0x1000 3 0) s1 = .next s2 ∧ FinishedOk s1 s2 ∧ exec (.install 0x3000 0) s2 = .next s3 ∧
        FinishedOk s2 s3 ∧ exec (.capture 0x300A 0) s3 = .next s4 ∧ FinishedOk s3 s4 :=
  ⟨rfl, by decide, _, _, _, _, rfl, ⟨rfl, rfl⟩, rfl, ⟨rfl, rfl⟩, rfl, ⟨rfl, rfl⟩, rfl, rfl, rfl⟩

/-- The state after G11. -/
def loaded : State := nextOf (exec (.load 0x1000 3 0) withTable) withTable

theorem witness_CaptureAfterLoadReturnsTheDerivedValue :
    exec (.load 0x1000 3 0) withTable = .next loaded ∧ FinishedOk withTable loaded ∧
      admitted loaded.params (0x3000#64).toNat 10 = true := ⟨rfl, ⟨rfl, rfl⟩, by decide⟩
/-- Also a witness of `GdtrChangesOnlyAtRingZero`. -/
theorem witness_LoadInstallsOnlyAValidTable :
    exec (.load 0x1000 3 0) withTable = .next loaded ∧ loaded.gdtr ≠ withTable.gdtr := ⟨rfl, by decide⟩
theorem witness_GdtrChangesOnlyAtRingZero :
    ∃ t, exec (.install 0x3000 0) withImage = .next t ∧ t.gdtr ≠ withImage.gdtr := ⟨_, rfl, by decide⟩

theorem witness_BuildThenLoadInstallsAConstructedTable :
    ∃ t u : State, exec (.tbuild 0x1000 0x2000 3) withSource = .next t ∧ FinishedOk withSource t ∧
      exec (.load 0x1000 3 0) t = .next u ∧ FinishedOk t u := ⟨_, _, rfl, ⟨rfl, rfl⟩, rfl, rfl, rfl⟩

/-- The table of P4 at 0x1000, stride 8. -/
def withTableEight : State := storing 0x1000 (zeros 8 ++ v1Bytes ++ v2Bytes) (start .eight)

/-- Index 0, the last index of the table, and the first past it. -/
theorem witness_LoadedStrideEightTableIsWhatTheProcessorSees :
    withTableEight.params.stride = .eight ∧
      (∃ t, exec (.load 0x1000 3 0) withTableEight = .next t ∧ FinishedOk withTableEight t) ∧
      (2#13 : BitVec 13) ≠ 0 ∧ (2#13).toNat < (3#32).toNat ∧ (3#13 : BitVec 13) ≠ 0 ∧ (3#32).toNat ≤ (3#13).toNat :=
  ⟨rfl, ⟨_, rfl, rfl, rfl⟩, by decide, by decide, by decide, by decide⟩

/-- The table of T6 (its last even entry is entry 2 at index 3, its odd entry is entry 1 at indexes 1 and 2). -/
theorem witness_LoadedStrideTwelveTableIsMisreadByTheProcessor :
    withTable.params.stride = .twelve ∧ exec (.load 0x1000 3 0) withTable = .next loaded ∧ FinishedOk withTable loaded ∧
      (1 ≠ 0 ∧ 2 * 1 < (3#32).toNat ∧ (3#13).toNat = 3 * 1) ∧ (2 * 0 + 1 < (3#32).toNat ∧ (1#13).toNat = 3 * 0 + 1) ∧
      (2 * 0 + 1 < (3#32).toNat ∧ (2#13).toNat = 3 * 0 + 2) :=
  ⟨rfl, rfl, ⟨rfl, rfl⟩, by decide, by decide, by decide⟩

/-! Memory. -/

/-- Only the bytes 0x1000..0x1023 are admitted. -/
def narrow : State := State.resetWith { namedParams with memAdmit := [{ base := 0x1000, size := 36 }] }

theorem witness_UnadmittedAccessIsStuck_entry :
    checkFields topFields = none ∧ topSeg.limit.toNat ≤ 0xFFFFF ∧ topSeg.base.toNat ≤ 0xFFFFFFFF ∧
      admitted narrow.params (0x1019#64).toNat narrow.params.stride.bytes = false ∧
      admitted (start .twelve).params (0xFFFFFFFFFFFFFFF5#64).toNat (start .twelve).params.stride.bytes = false := by
  decide
theorem witness_UnadmittedAccessIsStuck_source :
    SizeFits narrow.params.stride (3#32).toNat ∧
      admitted narrow.params ((0x2000#64).toNat + narrow.params.stride.bytes)
        (((3#32).toNat - 1) * narrow.params.stride.bytes) = false := ⟨⟨by decide, by decide⟩, by decide⟩
theorem witness_UnadmittedAccessIsStuck_destination :
    SizeFits narrow.params.stride (1#32).toNat ∧ ¬SomeReservedSet narrow.params.stride narrow.mem (0x2000#64).toNat 1 ∧
      admitted narrow.params (0x2000#64).toNat ((1#32).toNat * narrow.params.stride.bytes) = false :=
  ⟨⟨by decide, by decide⟩, mt someReservedSet_iff.2 (by decide), by decide⟩
theorem witness_UnadmittedAccessIsStuck_image :
    admitted narrow.params (0x3000#64).toNat 10 = false ∧ narrow.params.capturePrivileged = false ∧
      admitted privileged.params (0xFFFFFFFFFFFFFFF7#64).toNat 10 = false := by decide

theorem witness_MemReadAndMemWriteAreLittleEndian : 0x1000 + 2 ≤ 0x1002 ∨ 0x1002 + 8 ≤ 0x1000 := by decide

/-- The last address each range fits at. -/
theorem witness_EveryCommandHasAStepWhereMemoryIsAdmitted :
    (∀ a < 2 ^ 64, byteAdmitted (start .twelve).params a = true) ∧
      RangesFit (.encode 0xFFFFFFFFFFFFFFF4 v1Fields) (start .twelve) ∧
      RangesFit (.tbuild 0xFFFFFFFFFFFFFFDC 0x2000 3) (start .twelve) ∧
      RangesFit (.capture 0xFFFFFFFFFFFFFFF6 3) (start .twelve) ∧ RangesFit (.tview 0xFFFFFFFFFFFFFFFF 3) (start .twelve) := by
  refine ⟨fun a h => ?_, by unfold RangesFit; decide, by unfold RangesFit; decide, by unfold RangesFit; decide, trivial⟩
  exact (admitted_iff _ a 1).1 (start_admits .twelve a 1 (by omega)) 0 (by decide)

/-! Rules of the whole machine. -/

theorem witness_HardwareFaultInExactlyTheListedCases :
    ∃ t, exec (.load 0x1000 3 1) withTable = .next t ∧ RaisesFault (.load 0x1000 3 1) withTable :=
  ⟨_, rfl, ⟨by decide, by decide⟩, validTable_iff.1 (by decide), .inl (by decide)⟩
theorem witness_HardwareFaultInExactlyTheListedCases_none :
    ∃ t, exec (.chkent 0x4000) withEntryV1 = .next t ∧ ¬RaisesFault (.chkent 0x4000) withEntryV1 := ⟨_, rfl, id⟩

/-- Also a witness of `FaultLogOnlyGrows`: a step that adds a record. -/
theorem witness_NoStepWritesLdtr :
    ∃ t, step ((start .twelve).setPending [Sys2Proof.encode (.install 0x3000 3)]) = .next t ∧ t.faultLog.length = 1 :=
  ⟨_, rfl, rfl⟩

/-- A LOAD that finishes OK. -/
theorem witness_ModeFollowsLoadAndInstall_load :
    exec (.load 0x1000 3 0) withTable = .next loaded ∧ FinishedOk withTable loaded := ⟨rfl, rfl, rfl⟩
/-- An INSTALL of the firmware's value, from FlatInstalled. -/
theorem witness_ModeFollowsLoadAndInstall_install :
    ∃ t, exec (.install 0x3000 0) (storing 0x3000 [0x7F, 0, 0, 0, 0, 0x7E, 0, 0, 0, 0] loaded) = .next t ∧
      FinishedOk (storing 0x3000 [0x7F, 0, 0, 0, 0, 0x7E, 0, 0, 0, 0] loaded) t ∧ t.mode = .preExisting :=
  ⟨_, rfl, ⟨rfl, rfl⟩, rfl⟩
/-- A LOAD that does not finish OK. -/
theorem witness_ModeFollowsLoadAndInstall_fails :
    ∃ t, exec (.load 0x1000 3 3) withTable = .next t ∧ ¬FinishedOk withTable t :=
  ⟨_, rfl, fun h => absurd h.2 (by decide)⟩
/-- Another command. -/
theorem witness_ModeFollowsLoadAndInstall_other :
    ∃ t, exec (.tview 0x1000 3) withTable = .next t ∧ ¬(∃ a0 n cpl, Instr.tview 0x1000 3 = .load a0 n cpl) ∧
      ¬∃ a0 cpl, Instr.tview 0x1000 3 = .install a0 cpl :=
  ⟨_, rfl, by rintro ⟨_, _, _, ⟨⟩⟩, by rintro ⟨_, _, ⟨⟩⟩⟩

theorem witness_ResponsesAreWrittenOnlyByTheirCommands_status :
    ∃ t, exec (.chkent 0x4000) withEntryV1 = .next t ∧ t.faultLog = withEntryV1.faultLog := ⟨_, rfl, rfl⟩
theorem witness_ResponsesAreWrittenOnlyByTheirCommands_fault :
    ∃ t, exec (.install 0x3000 3) withImage = .next t ∧ t.faultLog ≠ withImage.faultLog := ⟨_, rfl, by decide⟩
theorem witness_ResponsesAreWrittenOnlyByTheirCommands_entry :
    ∃ t, exec (.encode 0x4000 v5Fields) (start .twelve) = .next t ∧ t.rspEntry ≠ (start .twelve).rspEntry :=
  ⟨_, rfl, by decide⟩
theorem witness_ResponsesAreWrittenOnlyByTheirCommands_fields :
    ∃ t, exec (.decode 0x4000) withEntryV1 = .next t ∧ t.rspFields ≠ withEntryV1.rspFields := ⟨_, rfl, by decide⟩
theorem witness_ResponsesAreWrittenOnlyByTheirCommands_reg :
    ∃ t, exec (.tview 0x1000 3) (start .twelve) = .next t ∧ t.rspReg ≠ (start .twelve).rspReg := ⟨_, rfl, by decide⟩

theorem witness_MemoryIsKeptOutsideTheWriteRange :
    ∃ t, exec (.tbuild 0x1000 0x2000 3) withBadSource = .next t ∧ ¬FinishedOk withBadSource t :=
  ⟨_, rfl, fun h => absurd h.1 (by decide)⟩

/-- Two states that differ in MODE, a response register, FAULT_LOG and the queue. -/
theorem witness_CommandsReadOnlyRegistersAndMemory :
    ∃ s' : State, s'.mode ≠ withTable.mode ∧ s'.rspReg ≠ withTable.rspReg ∧ s'.faultLog ≠ withTable.faultLog ∧
      s'.pending ≠ withTable.pending ∧ withTable.params = s'.params ∧ withTable.gdtr = s'.gdtr ∧
      withTable.ldtr = s'.ldtr ∧ ∀ a, readByte withTable.mem a = readByte s'.mem a :=
  ⟨{ withTable with mode := .flatInstalled, rspReg := some 0, faultLog := [⟨0x08, 3, 13, 0⟩], pending := [tcheckRecord] },
    by decide, by decide, by decide, by decide, rfl, rfl, rfl, fun _ => rfl⟩

/-- Commands that write a piece of state the statement compares: RSP_ENTRY, RSP_FIELDS, RSP_REG and MODE. -/
theorem witness_CommandsReadOnlyRegistersAndMemory_written :
    (∃ t, exec (.encode 0x4000 v5Fields) (start .twelve) = .next t ∧ FinishedOk (start .twelve) t) ∧
      (∃ t, exec (.decode 0x4000) withEntryV1 = .next t ∧ FinishedOk withEntryV1 t) ∧
      (∃ t, exec (.tview 0x1000 3) (start .twelve) = .next t ∧ FinishedOk (start .twelve) t) ∧
      ∃ t, exec (.install 0x3000 0) withImage = .next t ∧ FinishedOk withImage t :=
  ⟨⟨_, rfl, rfl, rfl⟩, ⟨_, rfl, rfl, rfl⟩, ⟨_, rfl, rfl, rfl⟩, _, rfl, rfl, rfl⟩
/-- Commands that could write one and do not: a DECODE that fails and a LOAD that faults. -/
theorem witness_CommandsReadOnlyRegistersAndMemory_kept :
    (∃ t, exec (.decode 0x4000) withReserved = .next t ∧ ¬FinishedOk withReserved t) ∧
      ∃ t, exec (.load 0x1000 3 3) withTable = .next t ∧ ¬FinishedOk withTable t :=
  ⟨⟨_, rfl, fun h => absurd h.1 (by decide)⟩, _, rfl, fun h => absurd h.2 (by decide)⟩

/-- An ENCODE just past the active table. -/
theorem witness_LookupStaysWhileTheActiveTableIsUntouched :
    ∃ t, exec (.encode 0x1024 v1Fields) loaded = .next t ∧ t.gdtr = loaded.gdtr ∧
      ¬OverlapsActive loaded (writeRange (.encode 0x1024 v1Fields) loaded).1
        (writeRange (.encode 0x1024 v1Fields) loaded).2 := by
  refine ⟨_, rfl, rfl, ?_⟩
  rintro ⟨x, ⟨_, h1⟩, h2, _⟩
  have h3 : x ≤ 0x1023 := h1
  have h4 : 0x1024 ≤ x := h2
  omega

/-- A state in which every field of `Legal` says something: a checked, installed GDTR, a response in every register, a
fault in the log, a command to run. -/
def busy : State :=
  { withGoodBase with
    gdtr := { limit := 0x0023, base := 0xFFFF800000000000 }
    mode := .flatInstalled
    rspStatus := some 0x31
    rspEntry := some 0x125AD5345678BCDE
    rspFields := some v5Fields
    rspReg := some 0
    faultLog := [⟨0x0B, 0, 13, 0⟩]
    pending := [Sys2Proof.encode (.install 0x3000 0)] }

theorem witness_StepKeepsTheStateLegal : Legal busy ∧ ∃ t, step busy = .next t := by
  refine ⟨⟨by decide, by decide, fun h => ?_, fun _ => .inr ?_, ?_, ?_, ?_, ?_⟩, _, rfl⟩
  · exact absurd h (by decide)
  · exact (canonical_iff (by decide) (by decide)).1 (by decide)
  · rintro x ⟨⟩; decide
  · rintro x ⟨⟩; decide
  · rintro f ⟨⟩; exact ⟨by decide, by decide, by decide⟩
  · intro r h
    obtain rfl := List.mem_singleton.1 h
    exact ⟨rfl, rfl, .inl ⟨.inr rfl, .inr rfl⟩⟩

end Sys2Proof.Tests
end

section
/-!
PROOFS. The largest table (00_scope.md R9): the size check in terms of MAX_ENTRIES, and the length and limit of a table
of MAX_ENTRIES entries at each stride.
-/

namespace Sys2Proof.Proofs

open Sys2Proof.Config Sys2Proof.Machine

theorem stride_bytes_pos (k : Stride) : 0 < k.bytes := by cases k <;> decide

/-- MAX_ENTRIES is the largest count whose table fits TABLE_MAX_BYTES. -/
theorem tableLen_le_tableMaxBytes_iff {p : Params} {n : Nat} :
    tableLen p.stride n ≤ tableMaxBytes ↔ n ≤ p.maxEntries :=
  (Nat.le_div_iff_mul_le (stride_bytes_pos p.stride)).symm

theorem checkSize_none_iff_le_maxEntries {p : Params} {n : Nat} :
    checkSize p.stride n = none ↔ 1 ≤ n ∧ n ≤ p.maxEntries := by
  rw [checkSize_none, tableLen_le_tableMaxBytes_iff, Nat.succ_le_iff]

theorem maxEntries_of_twelve {p : Params} (h : p.stride = .twelve) : p.maxEntries = 5461 := by
  rw [Params.maxEntries, h]; rfl

theorem maxEntries_of_eight {p : Params} (h : p.stride = .eight) : p.maxEntries = 8192 := by
  rw [Params.maxEntries, h]; rfl

/-- Settles O21: a table passes the size check when it fits TABLE_MAX_BYTES, which is to have at most MAX_ENTRIES
entries; the lengths and limits are then those of 5461 entries of 12 bytes and of 8192 entries of 8 bytes. -/
theorem sizeCheckPassesUpToMaxEntries : Obligations.SizeCheckPassesUpToMaxEntries := by
  refine ⟨fun p n => checkSize_none_iff_le_maxEntries, fun p => ⟨rfl, fun h12 => ?_, fun h8 => ?_⟩⟩
  · have hmax := maxEntries_of_twelve h12
    rw [hmax, h12]
    exact ⟨rfl, rfl, rfl⟩
  · have hmax := maxEntries_of_eight h8
    rw [hmax, h8]
    exact ⟨rfl, rfl, rfl⟩

end Sys2Proof.Proofs
end

section
/-!
PROOFS. How a command ends, said once for all eleven: what the checks let through (`Passed`), what a command that
finishes OK writes (`completed`), and the four ends of two runs of one command from states that read alike
(`RunsAlike`). One run's ends (`Ends`) are the case of two equal states. The proofs about every command and about every
step stand on these.
-/

namespace Sys2Proof.Proofs

open Sys2Proof.Config Sys2Proof.Machine Sys2Proof.Safety

variable {i : Instr} {s s' t t' go go' : State} {o o' : Result}

/-! ### The opcode of each command (30_encoding.md R66) -/

@[simp] theorem opcodeOf_encode (a0 : Addr) (f : FieldRecord) : opcodeOf (.encode a0 f) = 0x01#8 := rfl
@[simp] theorem opcodeOf_encseg (a0 : Addr) (q : SegParams) : opcodeOf (.encseg a0 q) = 0x02#8 := rfl
@[simp] theorem opcodeOf_decode (a0 : Addr) : opcodeOf (.decode a0) = 0x03#8 := rfl
@[simp] theorem opcodeOf_chkent (a0 : Addr) : opcodeOf (.chkent a0) = 0x04#8 := rfl
@[simp] theorem opcodeOf_tbuild (a0 a1 : Addr) (n : BitVec 32) : opcodeOf (.tbuild a0 a1 n) = 0x05#8 := rfl
@[simp] theorem opcodeOf_tcheck (a0 : Addr) (n : BitVec 32) : opcodeOf (.tcheck a0 n) = 0x06#8 := rfl
@[simp] theorem opcodeOf_tview (a0 : Addr) (n : BitVec 32) : opcodeOf (.tview a0 n) = 0x07#8 := rfl
@[simp] theorem opcodeOf_install (a0 : Addr) (cpl : BitVec 2) : opcodeOf (.install a0 cpl) = 0x08#8 := rfl
@[simp] theorem opcodeOf_capture (a0 : Addr) (cpl : BitVec 2) : opcodeOf (.capture a0 cpl) = 0x09#8 := rfl
@[simp] theorem opcodeOf_capldt (a0 : Addr) (cpl : BitVec 2) : opcodeOf (.capldt a0 cpl) = 0x0A#8 := rfl
@[simp] theorem opcodeOf_load (a0 : Addr) (n : BitVec 32) (cpl : BitVec 2) : opcodeOf (.load a0 n cpl) = 0x0B#8 := rfl

/-! ### What a command that finishes OK writes beside RSP_STATUS -/

/-- What ENCODE and ENCSEG write (40_entry_codec.md R84). -/
def storedEntry (a0 : Addr) (f : FieldRecord) (s : State) : State :=
  (s.setMem (memWrite s.mem a0.toNat s.params.stride.bytes (packEntry s.params.stride f).toNat)).setEntry
    (packEntry s.params.stride f)

/-- What CAPTURE and CAPLDT write (42_gdtr_access.md R123, R124). -/
def capturedReg (v : RegValue) (a0 : Addr) (s : State) : State :=
  (s.setMem (memWrite s.mem a0.toNat regImageBytes (packReg v).toNat)).setReg (packReg v)

/-- The register value INSTALL takes from memory (42_gdtr_access.md R122). -/
def imageAt (a0 : Addr) (s : State) : RegValue := unpackReg (regImage s.mem a0.toNat)

/-- The state a command leaves to `finishOk` once its checks have passed. -/
def completed (i : Instr) (s : State) : State :=
  match i with
  | .encode a0 f => storedEntry a0 f s
  | .encseg a0 q => storedEntry a0 (segFields q) s
  | .decode a0 => s.setFields (unpackEntry s.params.stride (entryImage s.params.stride s.mem a0.toNat))
  | .chkent _ => s
  | .tbuild a0 a1 n => s.setMem (builtTable a0 a1 n s)
  | .tcheck _ _ => s
  | .tview a0 n => s.setReg (packReg (tableReg s.params.stride a0 n.toNat))
  | .install a0 _ => (s.setGdtr (imageAt a0 s)).setMode (modeOfInstall s.params (imageAt a0 s))
  | .capture a0 _ => capturedReg s.gdtr a0 s
  | .capldt a0 _ => capturedReg s.ldtr a0 s
  | .load a0 n _ =>
    ((s.setGdtr (tableReg s.params.stride a0 n.toNat)).setMode .flatInstalled).setReg
      (packReg (tableReg s.params.stride a0 n.toNat))

/-- The table is one TCHECK and LOAD accept: its count, its admission, its bytes (41_descriptor_table.md R103). -/
structure TablePasses (a0 : Addr) (n : BitVec 32) (s : State) : Prop where
  size : checkSize s.params.stride n.toNat = none
  admission : admitted s.params a0.toNat (tableLen s.params.stride n.toNat) = true
  bytes : checkTable s.params.stride s.mem a0.toNat n.toNat = none

/-- The checks of a command have all passed. -/
def Passed (i : Instr) (s : State) : Prop :=
  match i with
  | .encode a0 f => checkFields f = none ∧ admitted s.params a0.toNat s.params.stride.bytes = true
  | .encseg a0 q => checkFields (segFields q) = none ∧ admitted s.params a0.toNat s.params.stride.bytes = true
  | .decode a0 =>
    admitted s.params a0.toNat s.params.stride.bytes = true ∧ entryReservedSet s.params.stride s.mem a0.toNat = false
  | .chkent a0 =>
    admitted s.params a0.toNat s.params.stride.bytes = true ∧ entryReservedSet s.params.stride s.mem a0.toNat = false
  | .tbuild a0 a1 n =>
    checkSize s.params.stride n.toNat = none ∧
      anyReservedSet s.params.stride s.mem a1.toNat (n.toNat - 1) = false ∧
      admitted s.params a0.toNat (tableLen s.params.stride n.toNat) = true
  | .tcheck a0 n => TablePasses a0 n s
  | .tview _ n => checkSize s.params.stride n.toNat = none
  | .install a0 cpl =>
    cpl = 0 ∧ admitted s.params a0.toNat regImageBytes = true ∧ baseRefused s.params (imageAt a0 s).base = false
  | .capture a0 cpl => captureRefused s.params cpl = false ∧ admitted s.params a0.toNat regImageBytes = true
  | .capldt a0 cpl => captureRefused s.params cpl = false ∧ admitted s.params a0.toNat regImageBytes = true
  | .load a0 n cpl => TablePasses a0 n s ∧ cpl = 0 ∧ baseRefused s.params a0 = false

/-! ### States a command cannot tell apart -/

/-- The two states agree on all that a command reads (10_state.md R29). -/
structure SameReads (s s' : State) : Prop where
  params : s.params = s'.params
  gdtr : s.gdtr = s'.gdtr
  ldtr : s.ldtr = s'.ldtr
  mem : ∀ a, readByte s.mem a = readByte s'.mem a

theorem SameReads.refl (s : State) : SameReads s s := ⟨rfl, rfl, rfl, fun _ => rfl⟩

theorem SameReads.stride (h : SameReads s s') : s.params.stride = s'.params.stride :=
  congrArg Params.stride h.params

theorem SameReads.memRead_eq (h : SameReads s s') (a n : Nat) : memRead s.mem a n = memRead s'.mem a n :=
  memRead_congr fun _ _ => h.mem _

theorem SameReads.entryImage_eq (h : SameReads s s') (k : Stride) (a : Nat) :
    entryImage k s.mem a = entryImage k s'.mem a :=
  entryImage_congr fun _ _ => h.mem _

theorem SameReads.entryReservedSet_eq (h : SameReads s s') (k : Stride) (a : Nat) :
    entryReservedSet k s.mem a = entryReservedSet k s'.mem a := by
  rw [entryReservedSet, entryReservedSet, h.entryImage_eq]

theorem SameReads.anyReservedSet_eq (h : SameReads s s') (k : Stride) (a c : Nat) :
    anyReservedSet k s.mem a c = anyReservedSet k s'.mem a c := by
  rw [Bool.eq_iff_iff, anyReservedSet_iff, anyReservedSet_iff]
  simp only [h.entryReservedSet_eq]

theorem SameReads.checkTable_eq (h : SameReads s s') (k : Stride) (a n : Nat) :
    checkTable k s.mem a n = checkTable k s'.mem a n := by
  rw [checkTable, checkTable, h.anyReservedSet_eq, h.memRead_eq]

theorem SameReads.imageAt_eq (h : SameReads s s') (a0 : Addr) : imageAt a0 s = imageAt a0 s' := by
  rw [imageAt, imageAt, regImage, regImage, h.memRead_eq]

/-! ### The ends of two runs of one command -/

/-- Two runs of one command, from `s` and from `s'`, end in the same way; the reasons are given for the first. -/
inductive RunsAlike (i : Instr) (s s' : State) : Result → Result → Prop
  | stuck : RunsAlike i s s' (.fault .unadmittedAccess) (.fault .unadmittedAccess)
  | failed (r : Reason) : RunsAlike i s s' (.next (failInvalid r s)) (.next (failInvalid r s'))
  | faulted (h : RaisesFault i s) :
      RunsAlike i s s' (.next (raiseHardwareFault (opcodeOf i) (ringOf i) s))
        (.next (raiseHardwareFault (opcodeOf i) (ringOf i) s'))
  | done (h : Passed i s) : RunsAlike i s s' (.next (finishOk (completed i s))) (.next (finishOk (completed i s')))

theorem runsAlike_orFail {c c' : Option Reason} {k k' : Result} (hc : c = c')
    (hk : c = none → RunsAlike i s s' k k') : RunsAlike i s s' (orFail c s k) (orFail c' s' k') := by
  subst hc
  cases c with
  | none => exact hk rfl
  | some r => exact .failed r

theorem runsAlike_whenAdmitted {a n n' : Nat} {k k' : Result} (h : SameReads s s') (hn : n = n')
    (hk : admitted s.params a n = true → RunsAlike i s s' k k') :
    RunsAlike i s s' (whenAdmitted s a n k) (whenAdmitted s' a n' k') := by
  subst hn
  cases ha : admitted s.params a n with
  | false => rw [whenAdmitted_neg ha, whenAdmitted_neg (h.params ▸ ha)]; exact .stuck
  | true => rw [whenAdmitted_pos ha, whenAdmitted_pos (h.params ▸ ha)]; exact hk ha

theorem runsAlike_ite {b b' : Bool} {k k' l l' : Result} (hb : b = b') (hk : b = true → RunsAlike i s s' k k')
    (hl : b = false → RunsAlike i s s' l l') :
    RunsAlike i s s' (if b then k else l) (if b' then k' else l') := by
  subst hb
  cases b with
  | true => exact hk rfl
  | false => exact hl rfl

theorem runsAlike_next_ite {b b' : Bool} {u u' v v' : State} (hb : b = b')
    (hu : b = true → RunsAlike i s s' (.next u) (.next u'))
    (hv : b = false → RunsAlike i s s' (.next v) (.next v')) :
    RunsAlike i s s' (.next (if b then u else v)) (.next (if b' then u' else v')) := by
  rw [apply_ite Host.Outcome.next, apply_ite Host.Outcome.next]
  exact runsAlike_ite hb hu hv

theorem runsAlike_storeEntry {a0 : Addr} {f : FieldRecord} (h : SameReads s s')
    (hgo : checkFields f = none → admitted s.params a0.toNat s.params.stride.bytes = true →
      RunsAlike i s s' (.next (finishOk (storedEntry a0 f s))) (.next (finishOk (storedEntry a0 f s')))) :
    RunsAlike i s s' (storeEntry a0 f s) (storeEntry a0 f s') :=
  runsAlike_orFail rfl fun hf => runsAlike_whenAdmitted h (by rw [h.stride]) (hgo hf)

theorem runsAlike_withEntry {a0 : Addr} {done done' : BitVec 96 → State} (h : SameReads s s')
    (hgo : admitted s.params a0.toNat s.params.stride.bytes = true →
      entryReservedSet s.params.stride s.mem a0.toNat = false →
      RunsAlike i s s' (.next (finishOk (done (entryImage s.params.stride s.mem a0.toNat))))
        (.next (finishOk (done' (entryImage s'.params.stride s'.mem a0.toNat))))) :
    RunsAlike i s s' (withEntry a0 s done) (withEntry a0 s' done') :=
  runsAlike_whenAdmitted h (by rw [h.stride]) fun ha =>
    runsAlike_next_ite (by rw [h.stride, h.entryReservedSet_eq]) (fun _ => .failed _) (hgo ha)

theorem runsAlike_withValidTable {a0 : Addr} {n : BitVec 32} (h : SameReads s s')
    (hgo : TablePasses a0 n s → RunsAlike i s s' (.next go) (.next go')) :
    RunsAlike i s s' (withValidTable a0 n s go) (withValidTable a0 n s' go') := by
  refine runsAlike_orFail (by rw [h.stride]) fun hsize => runsAlike_whenAdmitted h (by rw [h.stride]) fun hadmit => ?_
  rw [← h.stride, ← h.checkTable_eq]
  cases hbytes : checkTable s.params.stride s.mem a0.toNat n.toNat with
  | some r => exact .failed r
  | none => exact hgo ⟨hsize, hadmit, hbytes⟩

theorem captureRefused_iff {p : Params} {cpl : BitVec 2} :
    captureRefused p cpl = true ↔ p.capturePrivileged = true ∧ cpl ≠ 0 := by
  simp [captureRefused, privOk]

theorem ne_zero_of_not_privOk {cpl : BitVec 2} (h : privOk cpl = false) : cpl ≠ 0 := by
  simpa [privOk] using h

/-- CAPTURE and CAPLDT, each with its register. -/
theorem runsAlike_captureReg {v v' : RegValue} {a0 : Addr} (h : SameReads s s')
    (hf : s.params.capturePrivileged = true ∧ ringOf i ≠ 0 → RaisesFault i s)
    (hgo : captureRefused s.params (ringOf i) = false → admitted s.params a0.toNat regImageBytes = true →
      RunsAlike i s s' (.next (finishOk (capturedReg v a0 s))) (.next (finishOk (capturedReg v' a0 s')))) :
    RunsAlike i s s' (captureReg (opcodeOf i) v a0 (ringOf i) s) (captureReg (opcodeOf i) v' a0 (ringOf i) s') :=
  runsAlike_ite (by rw [h.params]) (fun hc => .faulted (hf (captureRefused_iff.1 hc))) fun hc =>
    runsAlike_whenAdmitted h rfl (hgo hc)

theorem execTbuild_runsAlike (h : SameReads s s') (a0 a1 : Addr) (n : BitVec 32) :
    RunsAlike (.tbuild a0 a1 n) s s' (execTbuild a0 a1 n s) (execTbuild a0 a1 n s') := by
  rw [execTbuild, execTbuild, ← h.stride]
  refine runsAlike_orFail rfl fun hsize => runsAlike_whenAdmitted h rfl fun _ =>
    runsAlike_ite (h.anyReservedSet_eq _ _ _) (fun _ => .failed _) fun hr =>
      runsAlike_whenAdmitted h rfl fun ha => .done (i := .tbuild a0 a1 n) ⟨hsize, hr, ha⟩

theorem execInstall_runsAlike (h : SameReads s s') (a0 : Addr) (cpl : BitVec 2) :
    RunsAlike (.install a0 cpl) s s' (execInstall a0 cpl s) (execInstall a0 cpl s') := by
  refine runsAlike_ite rfl (fun hp => runsAlike_whenAdmitted h rfl fun ha => ?_) fun hp => ?_
  · have hrefused : baseRefused s.params (imageAt a0 s).base = baseRefused s'.params (imageAt a0 s').base := by
      rw [h.params, h.imageAt_eq]
    refine runsAlike_next_ite hrefused (fun hb => ?_) fun hb => ?_
    · exact .faulted (i := .install a0 cpl) (.inr (unpackReg_regImage _ _ ▸ baseRefused_iff.1 hb))
    · exact .done (i := .install a0 cpl) ⟨privOk_iff.1 hp, ha, hb⟩
  · exact .faulted (i := .install a0 cpl) (.inl (ne_zero_of_not_privOk hp))

theorem execLoad_runsAlike (h : SameReads s s') (a0 : Addr) (n : BitVec 32) (cpl : BitVec 2) :
    RunsAlike (.load a0 n cpl) s s' (execLoad a0 n cpl s) (execLoad a0 n cpl s') := by
  refine runsAlike_withValidTable h fun hv => ?_
  have hfault (hx : cpl ≠ 0 ∨ ¬BaseAccepted s.params a0) : RaisesFault (.load a0 n cpl) s :=
    ⟨sizeFits_iff.1 hv.size, validTable_iff.1 hv.bytes, hx⟩
  refine runsAlike_next_ite rfl (fun hp => runsAlike_next_ite (by rw [h.params]) (fun hb => ?_) fun hb => ?_)
    fun hp => ?_
  · exact .faulted (i := .load a0 n cpl) (hfault (.inr (baseRefused_iff.1 hb)))
  · exact .done (i := .load a0 n cpl) ⟨hv, privOk_iff.1 hp, hb⟩
  · exact .faulted (i := .load a0 n cpl) (hfault (.inl (ne_zero_of_not_privOk hp)))

/-- Two runs of a command from states that agree on what it reads end alike. -/
theorem exec_runsAlike (i : Instr) (h : SameReads s s') : RunsAlike i s s' (exec i s) (exec i s') := by
  cases i with
  | encode a0 f => exact runsAlike_storeEntry h fun hf ha => .done (i := .encode a0 f) ⟨hf, ha⟩
  | encseg a0 q => exact runsAlike_storeEntry h fun hf ha => .done (i := .encseg a0 q) ⟨hf, ha⟩
  | decode a0 =>
    show RunsAlike (.decode a0) s s' (execDecode a0 s) (execDecode a0 s')
    exact runsAlike_withEntry h fun ha hr => .done (i := .decode a0) ⟨ha, hr⟩
  | chkent a0 =>
    show RunsAlike (.chkent a0) s s' (execChkent a0 s) (execChkent a0 s')
    exact runsAlike_withEntry h fun ha hr => .done (i := .chkent a0) ⟨ha, hr⟩
  | tbuild a0 a1 n => exact execTbuild_runsAlike h a0 a1 n
  | tcheck a0 n => exact runsAlike_withValidTable h fun hv => .done (i := .tcheck a0 n) hv
  | tview a0 n => exact runsAlike_orFail (by rw [h.stride]) fun hsize => .done (i := .tview a0 n) hsize
  | install a0 cpl => exact execInstall_runsAlike h a0 cpl
  | capture a0 cpl =>
    exact runsAlike_captureReg (i := .capture a0 cpl) h id fun hc ha => .done (i := .capture a0 cpl) ⟨hc, ha⟩
  | capldt a0 cpl =>
    exact runsAlike_captureReg (i := .capldt a0 cpl) h id fun hc ha => .done (i := .capldt a0 cpl) ⟨hc, ha⟩
  | load a0 n cpl => exact execLoad_runsAlike h a0 n cpl

/-! ### The ends of one run -/

/-- The next states a command can have (60_exceptions.md R140), each with the reason for it. -/
inductive Ends (i : Instr) (s : State) : State → Prop
  | failed (r : Reason) : Ends i s (failInvalid r s)
  | faulted (h : RaisesFault i s) : Ends i s (raiseHardwareFault (opcodeOf i) (ringOf i) s)
  | done (h : Passed i s) : Ends i s (finishOk (completed i s))

theorem RunsAlike.ends (h : RunsAlike i s s' (.next t) o) : Ends i s t := by
  cases h with
  | failed r => exact .failed r
  | faulted hf => exact .faulted hf
  | done hp => exact .done hp

/-- What a command can do, whichever it is. -/
theorem exec_ends (h : exec i s = .next t) : Ends i s t :=
  (h ▸ exec_runsAlike i (SameReads.refl s)).ends

/-! ### One step -/

theorem step_of_decoded {r : CommandRecord} {rest : List CommandRecord} (hq : s.pending = r :: rest)
    (hd : decodeRecord r = .ok i) : step s = exec i (s.setPending rest) := by
  simp [step, nextCommand_cons hq, hd]

theorem step_of_reserved {r : CommandRecord} {rest : List CommandRecord} {e : DecodeError}
    (hq : s.pending = r :: rest) (hd : decodeRecord r = .error e) :
    step s = .next (illegalCommand (s.setPending rest)) := by
  simp [step, nextCommand_cons hq, hd]

theorem step_of_none_pending (hq : s.pending = []) : step s = .next s := by
  simp [step, nextCommand_nil hq]

/-- The next states of a step: the block waits, reports a reserved opcode, or runs a command to one of its ends. -/
inductive StepEnds (s : State) : State → Prop
  | waits : StepEnds s s
  | illegal (rest : List CommandRecord) : StepEnds s (illegalCommand (s.setPending rest))
  | ran {i : Instr} {t : State} (rest : List CommandRecord) (h : Ends i (s.setPending rest) t) : StepEnds s t

theorem step_ends (h : step s = .next t) : StepEnds s t := by
  cases hq : s.pending with
  | nil =>
    rw [step_of_none_pending hq] at h
    obtain rfl := Host.Outcome.next.inj h
    exact .waits
  | cons r rest =>
    cases hd : decodeRecord r with
    | error e =>
      rw [step_of_reserved hq hd] at h
      obtain rfl := Host.Outcome.next.inj h
      exact .illegal rest
    | ok i =>
      rw [step_of_decoded hq hd] at h
      exact .ran rest (exec_ends h)

end Sys2Proof.Proofs
end

section
/-!
PROOFS. Who writes each piece of state (10_state.md R22 to R29): GDTR, memory, the response registers, FAULT_LOG; and
what a command's effect can depend on.
-/

namespace Sys2Proof.Proofs

open Sys2Proof.Config Sys2Proof.Machine Sys2Proof.Safety

variable {i : Instr} {s s' t t' : State} {o o' : Result}

/-! ### The outcome a state shows -/

theorem raiseHardwareFault_faultLog_ne (op : BitVec 8) (cpl : BitVec 2) (s : State) :
    (raiseHardwareFault op cpl s).faultLog ≠ s.faultLog := by
  simp

theorem statusInvalid_ne_ok (r : Reason) : statusInvalid r ≠ 0x00#8 := by
  cases r <;> decide

theorem not_finishedOk_failInvalid (r : Reason) (s : State) : ¬FinishedOk s (failInvalid r s) :=
  fun h => statusInvalid_ne_ok r (Option.some.inj h.1)

theorem not_finishedOk_raiseHardwareFault (op : BitVec 8) (cpl : BitVec 2) (s : State) :
    ¬FinishedOk s (raiseHardwareFault op cpl s) :=
  fun h => raiseHardwareFault_faultLog_ne op cpl s h.2

theorem completed_faultLog (i : Instr) (s : State) : (completed i s).faultLog = s.faultLog := by
  cases i <;> simp [completed, storedEntry, capturedReg]

theorem finishedOk_completed (i : Instr) (s : State) : FinishedOk s (finishOk (completed i s)) :=
  ⟨rfl, completed_faultLog i s⟩

theorem statusInvalid_mem (r : Reason) : statusInvalid r ∈ [0x11#8, 0x21#8, 0x31#8, 0x41#8, 0x51#8, 0x61#8] := by
  cases r <;> decide

/-! ### Pieces of state that reporting an outcome leaves alone -/

/-- `get` reads neither RSP_STATUS nor FAULT_LOG. -/
structure ApartFromOutcome {α : Type} (get : State → α) : Prop where
  setStatus : ∀ (u : State) (x : BitVec 8), get (u.setStatus x) = get u := by intros; rfl
  logFault : ∀ (u : State) (r : FaultRecord), get (u.logFault r) = get u := by intros; rfl

/-- Whatever changes beside the outcome, a command that finished OK has written. -/
theorem Ends.completed_of_changed {α : Type} {get : State → α} (hget : ApartFromOutcome get) (h : Ends i s t)
    (hne : get t ≠ get s) : FinishedOk s t ∧ Passed i s ∧ get (completed i s) ≠ get s := by
  cases h with
  | failed r => exact absurd (hget.setStatus s _) hne
  | faulted _ => exact absurd (hget.logFault s _) hne
  | done hp => exact ⟨finishedOk_completed i s, hp, hget.setStatus (completed i s) _ ▸ hne⟩

/-! ### The commands that write each register -/

/-- ENCODE and ENCSEG, which write RSP_ENTRY (10_state.md R25). -/
def WritesEntry (i : Instr) : Prop := opcodeOf i = 0x01#8 ∨ opcodeOf i = 0x02#8
/-- DECODE, which writes RSP_FIELDS (10_state.md R25). -/
def WritesFields (i : Instr) : Prop := opcodeOf i = 0x03#8
/-- TVIEW, CAPTURE, CAPLDT and LOAD, which write RSP_REG (10_state.md R25). -/
def WritesReg (i : Instr) : Prop :=
  opcodeOf i = 0x07#8 ∨ opcodeOf i = 0x09#8 ∨ opcodeOf i = 0x0A#8 ∨ opcodeOf i = 0x0B#8
/-- INSTALL and LOAD, which write GDTR and MODE (10_state.md R22, R24). -/
def WritesGdtr (i : Instr) : Prop := opcodeOf i = 0x08#8 ∨ opcodeOf i = 0x0B#8

theorem writesEntry_iff : WritesEntry i ↔ (∃ a0 f, i = .encode a0 f) ∨ ∃ a0 q, i = .encseg a0 q := by
  cases i <;> simp [WritesEntry]

theorem writesFields_iff : WritesFields i ↔ ∃ a0, i = .decode a0 := by
  cases i <;> simp [WritesFields]

theorem writesReg_iff :
    WritesReg i ↔ (∃ a0 n, i = .tview a0 n) ∨ (∃ a0 cpl, i = .capture a0 cpl) ∨ (∃ a0 cpl, i = .capldt a0 cpl) ∨
      ∃ a0 n cpl, i = .load a0 n cpl := by
  cases i <;> simp [WritesReg]

theorem writesGdtr_iff : WritesGdtr i ↔ (∃ a0 cpl, i = .install a0 cpl) ∨ ∃ a0 n cpl, i = .load a0 n cpl := by
  cases i <;> simp [WritesGdtr]

theorem completed_rspEntry_of_not (h : ¬WritesEntry i) : (completed i s).rspEntry = s.rspEntry := by
  cases i with
  | encode a0 f => exact absurd (.inl rfl) h
  | encseg a0 q => exact absurd (.inr rfl) h
  | _ => simp [completed, capturedReg]

theorem completed_rspFields_of_not (h : ¬WritesFields i) : (completed i s).rspFields = s.rspFields := by
  cases i with
  | decode a0 => exact absurd rfl h
  | _ => simp [completed, storedEntry, capturedReg]

theorem completed_rspReg_of_not (h : ¬WritesReg i) : (completed i s).rspReg = s.rspReg := by
  cases i with
  | tview a0 n => exact absurd (.inl rfl) h
  | capture a0 cpl => exact absurd (.inr (.inl rfl)) h
  | capldt a0 cpl => exact absurd (.inr (.inr (.inl rfl))) h
  | load a0 n cpl => exact absurd (.inr (.inr (.inr rfl))) h
  | _ => simp [completed, storedEntry]

theorem completed_gdtr_mode_of_not (h : ¬WritesGdtr i) :
    (completed i s).gdtr = s.gdtr ∧ (completed i s).mode = s.mode := by
  cases i with
  | install a0 cpl => exact absurd (.inl rfl) h
  | load a0 n cpl => exact absurd (.inr rfl) h
  | _ => simp [completed, storedEntry, capturedReg]

/-- Settles O38: only a command that finished OK has changed GDTR, that is an INSTALL or a LOAD, and its privilege check
has passed. -/
theorem gdtrChangesOnlyAtRingZero : Obligations.GdtrChangesOnlyAtRingZero := by
  intro i s t h hne
  obtain ⟨hok, hp, hw⟩ := (exec_ends h).completed_of_changed (get := State.gdtr) {} hne
  refine ⟨?_, hok⟩
  rcases writesGdtr_iff.1 (Not.imp_symm (fun hn => (completed_gdtr_mode_of_not hn).1) hw) with
    ⟨a0, cpl, rfl⟩ | ⟨a0, n, cpl, rfl⟩
  · obtain ⟨rfl, -, -⟩ := hp
    exact .inl ⟨a0, rfl⟩
  · obtain ⟨-, rfl, -⟩ := hp
    exact .inr ⟨a0, n, rfl⟩

/-! ### Memory -/

theorem memWrite_keptOutside (m : Memory) (a n v : Nat) : KeptOutside m (memWrite m a n v) a n :=
  fun _ hx => readByte_memWrite_other hx

theorem builtTable_keptOutside {a0 a1 : Addr} {n : BitVec 32} (hn : 0 < n.toNat) :
    KeptOutside s.mem (builtTable a0 a1 n s) a0.toNat (n.toNat * s.params.stride.bytes) := by
  intro x hx
  have hl : tableLen s.params.stride n.toNat = n.toNat * s.params.stride.bytes := rfl
  have hs := tableLen_split s.params.stride hn
  rw [readByte_builtTable hn, if_neg (by omega), if_neg (by omega)]

theorem completed_keptOutside (hp : Passed i s) :
    KeptOutside s.mem (completed i s).mem (writeRange i s).1 (writeRange i s).2 := by
  cases i with
  | encode a0 f => exact memWrite_keptOutside _ _ _ _
  | encseg a0 q => exact memWrite_keptOutside _ _ _ _
  | tbuild a0 a1 n =>
    obtain ⟨hsize, -, -⟩ := hp
    exact builtTable_keptOutside (checkSize_none.1 hsize).1
  | capture a0 cpl => exact memWrite_keptOutside _ _ _ _
  | capldt a0 cpl => exact memWrite_keptOutside _ _ _ _
  | _ => intro x _; simp [completed]

/-- Settles O43: only a command that finished OK has written memory, by one MemWrite or by building its table, and each
of the two stays in the command's range. -/
theorem memoryIsKeptOutsideTheWriteRange : Obligations.MemoryIsKeptOutsideTheWriteRange := by
  intro i s t h
  have hends := exec_ends h
  constructor
  · cases hends with
    | failed r => exact fun _ _ => rfl
    | faulted _ => exact fun _ _ => rfl
    | done hp => exact completed_keptOutside hp
  · refine Not.imp_symm fun hne => ?_
    exact (hends.completed_of_changed (get := State.mem) {} hne).1

/-! ### What two runs of one command agree on -/

/-- A run that gets stuck is matched by a stuck run, and a next state by a next state. -/
theorem RunsAlike.stuck_or_next (h : RunsAlike i s s' o o') :
    (o = .fault .unadmittedAccess ∧ o' = .fault .unadmittedAccess) ∨
      ∃ t t', o = .next t ∧ o' = .next t' ∧ RunsAlike i s s' (.next t) (.next t') := by
  cases h with
  | stuck => exact .inl ⟨rfl, rfl⟩
  | failed r => exact .inr ⟨_, _, rfl, rfl, .failed r⟩
  | faulted hf => exact .inr ⟨_, _, rfl, rfl, .faulted hf⟩
  | done hp => exact .inr ⟨_, _, rfl, rfl, .done hp⟩

theorem RunsAlike.finishedOk_iff (h : RunsAlike i s s' (.next t) (.next t')) : FinishedOk s t ↔ FinishedOk s' t' := by
  cases h with
  | failed r => exact iff_of_false (not_finishedOk_failInvalid r s) (not_finishedOk_failInvalid r s')
  | faulted _ =>
    exact iff_of_false (not_finishedOk_raiseHardwareFault _ _ s) (not_finishedOk_raiseHardwareFault _ _ s')
  | done _ => exact iff_of_true (finishedOk_completed i s) (finishedOk_completed i s')

theorem RunsAlike.same_faults_logged (h : RunsAlike i s s' (.next t) (.next t')) :
    ∃ l, t.faultLog = s.faultLog ++ l ∧ t'.faultLog = s'.faultLog ++ l := by
  cases h with
  | failed r => exact ⟨[], by simp⟩
  | faulted _ => exact ⟨_, rfl, rfl⟩
  | done _ => exact ⟨[], by simp [completed_faultLog]⟩

theorem RunsAlike.rspStatus_eq (h : RunsAlike i s s' (.next t) (.next t')) (hlog : t.faultLog = s.faultLog) :
    t.rspStatus = t'.rspStatus := by
  cases h with
  | failed r => rfl
  | faulted _ => exact absurd hlog (raiseHardwareFault_faultLog_ne _ _ s)
  | done _ => rfl

/-- What the two states agree on, and the completed commands too, the two next states agree on. -/
theorem RunsAlike.agree {α : Type} {get : State → α} (hget : ApartFromOutcome get)
    (h : RunsAlike i s s' (.next t) (.next t')) (hsame : get s = get s')
    (hdone : Passed i s → get (completed i s) = get (completed i s')) : get t = get t' := by
  cases h with
  | failed r => exact (hget.setStatus s _).trans (hsame.trans (hget.setStatus s' _).symm)
  | faulted _ => exact (hget.logFault s _).trans (hsame.trans (hget.logFault s' _).symm)
  | done hp => exact (hget.setStatus _ _).trans ((hdone hp).trans (hget.setStatus _ _).symm)

/-- What some commands write from what they read, and the others leave, agrees where it is written and is kept where it
is not. -/
theorem RunsAlike.agreeOrKept {α : Type} {get : State → α} {writes : Prop} (hget : ApartFromOutcome get)
    (h : RunsAlike i s s' (.next t) (.next t')) (hdone : writes → get (completed i s) = get (completed i s'))
    (hkept : ¬writes → ∀ u, get (completed i u) = get u) : AgreeOrKept (FinishedOk s t ∧ writes) get s t s' t' := by
  cases h with
  | failed r =>
    exact ⟨fun hw => absurd hw.1 (not_finishedOk_failInvalid r s),
      fun _ => ⟨hget.setStatus s _, hget.setStatus s' _⟩⟩
  | faulted _ =>
    exact ⟨fun hw => absurd hw.1 (not_finishedOk_raiseHardwareFault _ _ s),
      fun _ => ⟨hget.logFault s _, hget.logFault s' _⟩⟩
  | done _ =>
    refine ⟨fun hw => ?_, fun hn => ?_⟩
    · exact (hget.setStatus _ _).trans ((hdone hw.2).trans (hget.setStatus _ _).symm)
    · have hk := hkept fun hw => hn ⟨finishedOk_completed i s, hw⟩
      exact ⟨(hget.setStatus _ _).trans (hk s), (hget.setStatus _ _).trans (hk s')⟩

/-! ### What a completed command writes depends on what it reads -/

theorem SameReads.completed_ldtr (h : SameReads s s') : (completed i s).ldtr = (completed i s').ldtr := by
  have hkept (u : State) : (completed i u).ldtr = u.ldtr := by cases i <;> simp [completed, storedEntry, capturedReg]
  rw [hkept, hkept, h.ldtr]

theorem SameReads.completed_gdtr_mode (h : SameReads s s') (hw : WritesGdtr i) :
    (completed i s).gdtr = (completed i s').gdtr ∧ (completed i s).mode = (completed i s').mode := by
  rcases writesGdtr_iff.1 hw with ⟨a0, cpl, rfl⟩ | ⟨a0, n, cpl, rfl⟩
  · simp [completed, h.imageAt_eq, h.params]
  · simp [completed, h.stride]

theorem SameReads.completed_gdtr (h : SameReads s s') : (completed i s).gdtr = (completed i s').gdtr := by
  by_cases hw : WritesGdtr i
  · exact (h.completed_gdtr_mode hw).1
  · rw [(completed_gdtr_mode_of_not hw).1, (completed_gdtr_mode_of_not hw).1, h.gdtr]

theorem SameReads.completed_rspEntry (h : SameReads s s') (hw : WritesEntry i) :
    (completed i s).rspEntry = (completed i s').rspEntry := by
  rcases writesEntry_iff.1 hw with ⟨a0, f, rfl⟩ | ⟨a0, q, rfl⟩ <;> simp [completed, storedEntry, h.stride]

theorem SameReads.completed_rspFields (h : SameReads s s') (hw : WritesFields i) :
    (completed i s).rspFields = (completed i s').rspFields := by
  obtain ⟨a0, rfl⟩ := writesFields_iff.1 hw
  simp [completed, h.stride, h.entryImage_eq]

theorem SameReads.completed_rspReg (h : SameReads s s') (hw : WritesReg i) :
    (completed i s).rspReg = (completed i s').rspReg := by
  rcases writesReg_iff.1 hw with ⟨a0, n, rfl⟩ | ⟨a0, cpl, rfl⟩ | ⟨a0, cpl, rfl⟩ | ⟨a0, n, cpl, rfl⟩
  · simp [completed, h.stride]
  · simp [completed, capturedReg, h.gdtr]
  · simp [completed, capturedReg, h.ldtr]
  · simp [completed, h.stride]

/-- The same MemWrite leaves memories that read alike reading alike. -/
theorem SameReads.readByte_memWrite_eq (h : SameReads s s') (a n v x : Nat) :
    readByte (memWrite s.mem a n v) x = readByte (memWrite s'.mem a n v) x := by
  rw [readByte_memWrite, readByte_memWrite, h.mem]

theorem SameReads.readByte_storedEntry_eq (h : SameReads s s') (a0 : Addr) (f : FieldRecord) (x : Nat) :
    readByte (storedEntry a0 f s).mem x = readByte (storedEntry a0 f s').mem x := by
  simp [storedEntry, h.stride, h.readByte_memWrite_eq]

theorem SameReads.readByte_capturedReg_eq (h : SameReads s s') (v : RegValue) (a0 : Addr) (x : Nat) :
    readByte (capturedReg v a0 s).mem x = readByte (capturedReg v a0 s').mem x := by
  simp [capturedReg, h.readByte_memWrite_eq]

theorem SameReads.readByte_builtTable_eq (h : SameReads s s') {a0 a1 : Addr} {n : BitVec 32} (hn : 0 < n.toNat)
    (x : Nat) : readByte (builtTable a0 a1 n s) x = readByte (builtTable a0 a1 n s') x := by
  rw [readByte_builtTable hn, readByte_builtTable hn, h.mem, h.mem, h.stride]

theorem SameReads.readByte_completed (h : SameReads s s') (hp : Passed i s) (x : Nat) :
    readByte (completed i s).mem x = readByte (completed i s').mem x := by
  cases i with
  | encode a0 f => simp only [completed, h.readByte_storedEntry_eq]
  | encseg a0 q => simp only [completed, h.readByte_storedEntry_eq]
  | tbuild a0 a1 n =>
    obtain ⟨hsize, -, -⟩ := hp
    exact h.readByte_builtTable_eq (checkSize_none.1 hsize).1 x
  | capture a0 cpl => simp only [completed, h.gdtr, h.readByte_capturedReg_eq]
  | capldt a0 cpl => simp only [completed, h.ldtr, h.readByte_capturedReg_eq]
  | _ => simpa [completed] using h.mem x

/-- Settles O44: from states that agree on what the command reads its two runs end alike, and what a completed command
writes is a function of what it reads. -/
theorem commandsReadOnlyRegistersAndMemory : Obligations.CommandsReadOnlyRegistersAndMemory := by
  intro i s s' hparams hgdtr hldtr hmem
  have h : SameReads s s' := ⟨hparams, hgdtr, hldtr, hmem⟩
  refine (exec_runsAlike i h).stuck_or_next.imp_right ?_
  rintro ⟨t, t', ht, ht', hr⟩
  refine ⟨t, t', ht, ht', ?gdtr, ?ldtr, fun x => ?mem, hr.finishedOk_iff, hr.same_faults_logged, hr.rspStatus_eq,
    ?entry, ?fields, ?reg, ?mode⟩
  case gdtr => exact hr.agree {} hgdtr fun _ => h.completed_gdtr
  case ldtr => exact hr.agree {} hldtr fun _ => h.completed_ldtr
  case mem =>
    exact hr.agree (get := fun u => readByte u.mem x) {} (hmem x)
      fun hp => h.readByte_completed hp x
  case entry =>
    exact hr.agreeOrKept {} h.completed_rspEntry fun hn _ => completed_rspEntry_of_not hn
  case fields =>
    exact hr.agreeOrKept {} h.completed_rspFields fun hn _ => completed_rspFields_of_not hn
  case reg =>
    exact hr.agreeOrKept {} h.completed_rspReg fun hn _ => completed_rspReg_of_not hn
  case mode =>
    exact hr.agreeOrKept {} (fun hw => (h.completed_gdtr_mode hw).2)
      fun hn _ => (completed_gdtr_mode_of_not hn).2

/-! ### FAULT_LOG and the response registers -/

theorem Ends.faultLog_grows (h : Ends i s t) : ∃ l : List FaultRecord, l.length ≤ 1 ∧ t.faultLog = s.faultLog ++ l := by
  cases h with
  | failed r => exact ⟨[], by simp⟩
  | faulted _ => exact ⟨[_], le_refl 1, rfl⟩
  | done _ => exact ⟨[], by simp [completed_faultLog]⟩

/-- Settles O40: a step that raises a HardwareFault appends its record, and every other step leaves FAULT_LOG. -/
theorem faultLogOnlyGrows : Obligations.FaultLogOnlyGrows := by
  intro s t h
  cases step_ends h with
  | waits => exact ⟨[], by simp⟩
  | illegal rest => exact ⟨[], by simp⟩
  | ran rest hends => exact hends.faultLog_grows

/-- RSP_STATUS is not read, so a command that writes it does the same whatever it held. -/
theorem exec_of_rspStatus (h : exec i s = .next t) (hlog : t.faultLog = s.faultLog) (old : Option (BitVec 8)) :
    exec i { s with rspStatus := old } = .next t := by
  have hsame : SameReads s { s with rspStatus := old } := ⟨rfl, rfl, rfl, fun _ => rfl⟩
  have hr := exec_runsAlike i hsame
  rw [h] at hr
  generalize exec i { s with rspStatus := old } = o at hr ⊢
  cases hr with
  | failed r => rfl
  | faulted _ => exact absurd hlog (raiseHardwareFault_faultLog_ne _ _ s)
  | done _ => cases i <;> rfl

theorem Ends.rspStatus_legal (h : Ends i s t) (hlog : t.faultLog = s.faultLog) :
    ∃ x ∈ [0x00#8, 0x11#8, 0x21#8, 0x31#8, 0x41#8, 0x51#8, 0x61#8], t.rspStatus = some x := by
  cases h with
  | failed r => exact ⟨_, .tail _ (statusInvalid_mem r), rfl⟩
  | faulted _ => exact absurd hlog (raiseHardwareFault_faultLog_ne _ _ s)
  | done _ => exact ⟨_, .head _, rfl⟩

theorem Ends.rspStatus_kept (h : Ends i s t) (hlog : t.faultLog ≠ s.faultLog) : t.rspStatus = s.rspStatus := by
  cases h with
  | failed r => exact absurd rfl hlog
  | faulted _ => rfl
  | done _ => exact absurd (completed_faultLog i s) hlog

/-- Settles O42: RSP_STATUS by the four ends of a command, the other response registers by what a completed command
writes. -/
theorem responsesAreWrittenOnlyByTheirCommands : Obligations.ResponsesAreWrittenOnlyByTheirCommands := by
  intro i s t h
  have hends := exec_ends h
  refine ⟨fun hlog => ⟨hends.rspStatus_legal hlog, exec_of_rspStatus h hlog⟩, hends.rspStatus_kept, ?entry,
    ?fields, ?reg⟩
  case entry =>
    intro hne
    obtain ⟨hok, -, hw⟩ := hends.completed_of_changed (get := State.rspEntry) {} hne
    exact ⟨hok, Not.imp_symm completed_rspEntry_of_not hw⟩
  case fields =>
    intro hne
    obtain ⟨hok, -, hw⟩ := hends.completed_of_changed (get := State.rspFields) {} hne
    exact ⟨hok, Not.imp_symm completed_rspFields_of_not hw⟩
  case reg =>
    intro hne
    obtain ⟨hok, -, hw⟩ := hends.completed_of_changed (get := State.rspReg) {} hne
    exact ⟨hok, Not.imp_symm completed_rspReg_of_not hw⟩

/-! ### The queue and the requester's reads -/

/-- Settles O6: a step on a queue whose front decodes, and on an empty one. -/
theorem stepRunsTheDecodedCommand : Obligations.StepRunsTheDecodedCommand :=
  ⟨fun _ _ _ _ hq hd => step_of_decoded hq hd, fun _ hq => step_of_none_pending hq⟩

theorem readResponse_ok_iff {α : Type} {o : Option α} {x : α} : readResponse o = .ok x ↔ o = some x := by
  cases o <;> simp [readResponse]

theorem readResponse_error_iff {α : Type} {o : Option α} : readResponse o = .error .responseNotWritten ↔ o = none := by
  cases o <;> simp [readResponse]

/-- Settles O49: the four reads are one read of an optional value. -/
theorem responseReadsGiveTheValueOrFault : Obligations.ResponseReadsGiveTheValueOrFault :=
  fun _ => ⟨fun _ => readResponse_ok_iff, readResponse_error_iff, fun _ => readResponse_ok_iff,
    fun _ => readResponse_ok_iff, fun _ => readResponse_ok_iff, readResponse_error_iff, readResponse_error_iff,
    readResponse_error_iff⟩

end Sys2Proof.Proofs
end

section
/-!
PROOFS. Every step keeps a state legal: each update of the state keeps `Legal` under the condition it needs, and the
checks a command has passed give the condition for what it writes.
-/

namespace Sys2Proof.Proofs

open Sys2Proof.Config Sys2Proof.Machine Sys2Proof.Safety

variable {i : Instr} {s t : State}

/-! ### Values the codec computes (40_entry_codec.md R80, R81) -/

theorem packEntry_high (k : Stride) {f : FieldRecord} (hrsv : f.rsv = 0) : (packEntry k f).extractLsb' 64 32 = 0 := by
  cases k with
  | eight => exact BitVec.extractLsb'_append_eq_left
  | twelve => exact BitVec.extractLsb'_append_eq_left.trans hrsv

theorem unpackEntry_legal {k : Stride} {x : BitVec 96} (hres : reservedField k x = 0) :
    LegalFields (unpackEntry k x) := by
  refine ⟨?_, ?_, hres⟩
  · have hlt := (x.extractLsb' 48 4 ++ x.extractLsb' 0 16).isLt
    rw [unpackEntry, limitFieldMax, BitVec.toNat_setWidth]
    omega
  · have hlt := (x.extractLsb' 56 8 ++ x.extractLsb' 16 24).isLt
    rw [unpackEntry, baseFieldMax, BitVec.toNat_setWidth]
    omega

theorem reservedField_of_not_set {k : Stride} {m : Memory} {a : Nat} (h : entryReservedSet k m a = false) :
    reservedField k (entryImage k m a) = 0 := by
  simpa [entryReservedSet] using h

theorem rsv_of_checkFields {f : FieldRecord} (h : checkFields f = none) : f.rsv = 0 := by
  obtain ⟨-, -, hrsv⟩ := checkFields_none.1 h
  exact hrsv

/-! ### Each update keeps a state legal under its condition -/

theorem legal_setPending (hs : Legal s) (q : List CommandRecord) : Legal (s.setPending q) := { hs with }

theorem legal_setReg (hs : Legal s) (x : BitVec 80) : Legal (s.setReg x) := { hs with }

theorem legal_setMem (hs : Legal s) {m : Memory} (hm : Memory.wf m = true) : Legal (s.setMem m) :=
  { hs with mem_wf := hm }

theorem legal_setStatus (hs : Legal s) {x : BitVec 8} (hx : x ∈ legalStatus) : Legal (s.setStatus x) :=
  { hs with status_legal := fun _ hy => Option.some.inj hy ▸ hx }

theorem legal_setEntry (hs : Legal s) {x : BitVec 96} (hx : x.extractLsb' 64 32 = 0) : Legal (s.setEntry x) :=
  { hs with entry_legal := fun _ hy => Option.some.inj hy ▸ hx }

theorem legal_setFields (hs : Legal s) {f : FieldRecord} (hf : LegalFields f) : Legal (s.setFields f) :=
  { hs with fields_legal := fun _ hy => Option.some.inj hy ▸ hf }

theorem legal_logFault (hs : Legal s) {r : FaultRecord} (hr : LegalFault s.params r) : Legal (s.logFault r) :=
  { hs with
    faults_legal := fun e he => (List.mem_append.1 he).elim (hs.faults_legal e) fun h => List.mem_singleton.1 h ▸ hr }

/-- GDTR and MODE are written together, and a base that is not refused is canonical where that is checked. -/
theorem legal_setGdtr_setMode (hs : Legal s) {v : RegValue} {m : Mode} (hb : baseRefused s.params v.base = false)
    (hm : m = .preExisting → v = s.params.gdtrReset) : Legal ((s.setGdtr v).setMode m) :=
  { hs with
    mode_gdtr := hm
    gdtr_canonical := fun hon =>
      .inr ((baseAccepted_iff.1 hb).resolve_left fun hoff => absurd (hon.symm.trans hoff) (by decide)) }

theorem modeOfInstall_preExisting {p : Params} {v : RegValue} (h : modeOfInstall p v = .preExisting) :
    v = p.gdtrReset := by
  by_contra hv
  simp [modeOfInstall, hv] at h

/-! ### The ends of a command keep a state legal -/

theorem legal_failInvalid (hs : Legal s) (r : Reason) : Legal (failInvalid r s) :=
  legal_setStatus hs (.tail _ (.tail _ (statusInvalid_mem r)))

/-- The cases of a HardwareFault are those FAULT_LOG can hold (60_exceptions.md R143). -/
theorem legalFault_of_raisesFault (h : RaisesFault i s) : LegalFault s.params ⟨opcodeOf i, ringOf i, gpVector, 0⟩ := by
  have hchecked {b : Addr} (hb : ¬BaseAccepted s.params b) : s.params.checkCanonicalBase = true :=
    Bool.eq_true_of_not_eq_false fun hc => hb (.inl hc)
  refine ⟨rfl, rfl, ?_⟩
  cases i with
  | install a0 cpl => exact .inl ⟨.inl rfl, h.imp_right hchecked⟩
  | capture a0 cpl => exact .inr ⟨.inl rfl, h.2, h.1⟩
  | capldt a0 cpl => exact .inr ⟨.inr rfl, h.2, h.1⟩
  | load a0 n cpl =>
    obtain ⟨-, -, hx⟩ := h
    exact .inl ⟨.inr rfl, hx.imp_right hchecked⟩
  | _ => exact h.elim

theorem legal_storedEntry (hs : Legal s) {a0 : Addr} {f : FieldRecord} (hf : checkFields f = none)
    (ha : admitted s.params a0.toNat s.params.stride.bytes = true) : Legal (storedEntry a0 f s) :=
  legal_setEntry (legal_setMem hs (memWrite_wf hs.mem_wf (admitted_le (stride_bytes_pos _) ha)))
    (packEntry_high _ (rsv_of_checkFields hf))

theorem legal_capturedReg (hs : Legal s) {v : RegValue} {a0 : Addr}
    (ha : admitted s.params a0.toNat regImageBytes = true) : Legal (capturedReg v a0 s) :=
  legal_setReg (legal_setMem hs (memWrite_wf hs.mem_wf (admitted_le (by decide) ha))) _

theorem legal_builtTable (hs : Legal s) {a0 a1 : Addr} {n : BitVec 32}
    (hsize : checkSize s.params.stride n.toNat = none)
    (ha : admitted s.params a0.toNat (tableLen s.params.stride n.toNat) = true) :
    Legal (s.setMem (builtTable a0 a1 n s)) := by
  have hn : 0 < n.toNat := (checkSize_none.1 hsize).1
  have hlen : 0 < tableLen s.params.stride n.toNat := Nat.mul_pos hn (stride_bytes_pos _)
  exact legal_setMem hs (builtTable_wf hn hs.mem_wf (admitted_le hlen ha))

theorem legal_completed (hs : Legal s) (hp : Passed i s) : Legal (completed i s) := by
  cases i with
  | encode a0 f => exact legal_storedEntry hs hp.1 hp.2
  | encseg a0 q => exact legal_storedEntry hs hp.1 hp.2
  | decode a0 => exact legal_setFields hs (unpackEntry_legal (reservedField_of_not_set hp.2))
  | chkent a0 => exact hs
  | tbuild a0 a1 n =>
    obtain ⟨hsize, -, ha⟩ := hp
    exact legal_builtTable hs hsize ha
  | tcheck a0 n => exact hs
  | tview a0 n => exact legal_setReg hs _
  | install a0 cpl =>
    obtain ⟨-, -, hb⟩ := hp
    exact legal_setGdtr_setMode hs hb modeOfInstall_preExisting
  | capture a0 cpl => exact legal_capturedReg hs hp.2
  | capldt a0 cpl => exact legal_capturedReg hs hp.2
  | load a0 n cpl =>
    obtain ⟨-, -, hb⟩ := hp
    have hset : Legal ((s.setGdtr (tableReg s.params.stride a0 n.toNat)).setMode .flatInstalled) :=
      legal_setGdtr_setMode hs hb nofun
    exact legal_setReg hset _

theorem Ends.legal (h : Ends i s t) (hs : Legal s) : Legal t := by
  cases h with
  | failed r => exact legal_failInvalid hs r
  | faulted hf => exact legal_logFault hs (legalFault_of_raisesFault hf)
  | done hp => exact legal_setStatus (legal_completed hs hp) (by decide)

/-- Settles O46: taking a command from the queue keeps a state legal, and so does each end of the command. -/
theorem stepKeepsTheStateLegal : Obligations.StepKeepsTheStateLegal := by
  intro s t hs h
  cases step_ends h with
  | waits => exact hs
  | illegal rest => exact legal_setStatus (legal_setPending hs rest) (by decide)
  | ran rest hends => exact hends.legal (legal_setPending hs rest)

end Sys2Proof.Proofs
end

section
/-!
PROOFS. Memory (20_memory.md R42, R46, R48): a read as the sum of its bytes, what a write reads back as, and the commands
that an unadmitted access leaves stuck.
-/

namespace Sys2Proof.Proofs

open Sys2Proof.Config Sys2Proof.Machine Sys2Proof.Safety

/-! ### Reads and writes -/

theorem pow_256_eq_two_pow (n : Nat) : 256 ^ n = 2 ^ (8 * n) := by
  rw [pow_mul]; rfl

theorem memRead_one (m : Memory) (a : Nat) : memRead m a 1 = (readByte m a).toNat := rfl

theorem memRead_eq_sum (m : Memory) (a n : Nat) :
    memRead m a n = ∑ k ∈ Finset.range n, (readByte m (a + k)).toNat <<< (8 * k) := by
  induction n with
  | zero => rfl
  | succ n ih =>
    have hlast : 256 ^ n * memRead m (a + n) 1 = (readByte m (a + n)).toNat <<< (8 * n) := by
      rw [memRead_one, Nat.shiftLeft_eq, pow_256_eq_two_pow, Nat.mul_comm]
    rw [memRead_add, hlast, ih, Finset.sum_range_succ]

/-- The `n` low bytes of a value do not see what stands above them. -/
theorem leBytes_mod (n v : Nat) : leBytes n (v % 256 ^ n) = leBytes n v := by
  simpa [leValue_leBytes] using leBytes_leValue (leBytes n v)

theorem memRead_memWrite_mod (m : Memory) (a n v : Nat) : memRead (memWrite m a n v) a n = v % 256 ^ n := by
  have hcut : memWrite m a n v = memWrite m a n (v % 256 ^ n) := by rw [memWrite, memWrite, leBytes_mod]
  rw [hcut, memRead_memWrite_same (Nat.mod_lt v (by positivity))]

theorem memRead_memWrite_disjoint {a n b c : Nat} (m : Memory) (v : Nat) (h : b + c ≤ a ∨ a + n ≤ b) :
    memRead (memWrite m a n v) b c = memRead m b c :=
  memRead_congr fun _ _ => readByte_memWrite_other (by omega)

/-- Settles O33: a read takes its last byte at the highest weight; a write keeps a value's low bytes and touches only the
bytes of its range. -/
theorem memReadAndMemWriteAreLittleEndian : Obligations.MemReadAndMemWriteAreLittleEndian := by
  refine ⟨memRead_eq_sum, fun m a n v => ?_, fun m a n v b c => memRead_memWrite_disjoint m v⟩
  rw [memRead_memWrite_mod, pow_256_eq_two_pow]

/-! ### Getting stuck (20_memory.md R42)

One lemma per check in front of an access, and one per body that commands share. -/

variable {s : State} {a0 a1 : Addr} {n : BitVec 32} {cpl : BitVec 2}

theorem orFail_of_passed {c : Option Reason} {go : Result} (h : c = none) : orFail c s go = go := by
  rw [h, orFail_none]

/-- An access in front of a stuck rest is stuck, admitted or not. -/
theorem whenAdmitted_of_stuck (s : State) (a n : Nat) :
    whenAdmitted s a n (.fault .unadmittedAccess) = .fault .unadmittedAccess :=
  ite_self _

theorem storeEntry_stuck {f : FieldRecord} (hf : checkFields f = none)
    (ha : admitted s.params a0.toNat s.params.stride.bytes = false) : storeEntry a0 f s = .fault .unadmittedAccess :=
  (orFail_of_passed hf).trans (whenAdmitted_neg ha)

theorem withEntry_stuck {done : BitVec 96 → State} (ha : admitted s.params a0.toNat s.params.stride.bytes = false) :
    withEntry a0 s done = .fault .unadmittedAccess :=
  whenAdmitted_neg ha

theorem execDecode_stuck (ha : admitted s.params a0.toNat s.params.stride.bytes = false) :
    execDecode a0 s = .fault .unadmittedAccess :=
  withEntry_stuck ha

theorem execChkent_stuck (ha : admitted s.params a0.toNat s.params.stride.bytes = false) :
    execChkent a0 s = .fault .unadmittedAccess :=
  withEntry_stuck ha

theorem withValidTable_stuck {go : State} (hsize : SizeFits s.params.stride n.toNat)
    (ha : admitted s.params a0.toNat (tableLen s.params.stride n.toNat) = false) :
    withValidTable a0 n s go = .fault .unadmittedAccess :=
  (orFail_of_passed (sizeFits_iff.2 hsize)).trans (whenAdmitted_neg ha)

theorem execTbuild_stuck_at_source (hsize : SizeFits s.params.stride n.toNat)
    (ha : admitted s.params (entryAddr s.params.stride a1.toNat 1) (tableLen s.params.stride (n.toNat - 1)) = false) :
    execTbuild a0 a1 n s = .fault .unadmittedAccess :=
  (orFail_of_passed (sizeFits_iff.2 hsize)).trans (whenAdmitted_neg ha)

theorem execTbuild_stuck_at_destination (hsize : SizeFits s.params.stride n.toNat)
    (hsource : ¬SomeReservedSet s.params.stride s.mem a1.toNat n.toNat)
    (ha : admitted s.params a0.toNat (tableLen s.params.stride n.toNat) = false) :
    execTbuild a0 a1 n s = .fault .unadmittedAccess := by
  rw [execTbuild, orFail_of_passed (sizeFits_iff.2 hsize), if_neg (mt someReservedSet_iff.1 hsource),
    whenAdmitted_neg ha, whenAdmitted_of_stuck]

theorem execInstall_stuck (hp : cpl = 0) (ha : admitted s.params a0.toNat regImageBytes = false) :
    execInstall a0 cpl s = .fault .unadmittedAccess := by
  rw [execInstall, if_pos (privOk_iff.2 hp), whenAdmitted_neg ha]

theorem not_captureRefused {p : Params} (h : p.capturePrivileged = false ∨ cpl = 0) : ¬captureRefused p cpl = true := by
  rw [captureRefused_iff]
  rintro ⟨hpriv, hring⟩
  rcases h with h | h
  · exact absurd hpriv (by rw [h]; decide)
  · exact hring h

theorem captureReg_stuck {op : BitVec 8} {v : RegValue} (hp : s.params.capturePrivileged = false ∨ cpl = 0)
    (ha : admitted s.params a0.toNat regImageBytes = false) : captureReg op v a0 cpl s = .fault .unadmittedAccess := by
  rw [captureReg, if_neg (not_captureRefused hp), whenAdmitted_neg ha]

theorem segFields_checkFields {q : SegParams} (hl : q.limit.toNat ≤ limitFieldMax) (hb : q.base.toNat ≤ baseFieldMax) :
    checkFields (segFields q) = none :=
  checkFields_none.2 ⟨hl, hb, rfl⟩

/-- Settles O34: the checks in front of each command's access have passed, and the access is refused. -/
theorem unadmittedAccessIsStuck : Obligations.UnadmittedAccessIsStuck := by
  intro s a0 a1 f q n cpl
  refine ⟨?encode, ?encseg, ?decode_chkent, ?source, ?destination, ?tcheck_load, ?install, ?captures⟩
  case encode => exact storeEntry_stuck
  case encseg => exact fun hl hb => storeEntry_stuck (segFields_checkFields hl hb)
  case decode_chkent => exact fun ha => ⟨execDecode_stuck ha, execChkent_stuck ha⟩
  case source =>
    intro hsize ha
    exact execTbuild_stuck_at_source hsize (by rwa [entryAddr, Nat.one_mul])
  case destination => exact execTbuild_stuck_at_destination
  case tcheck_load => exact fun hsize ha => ⟨withValidTable_stuck hsize ha, withValidTable_stuck hsize ha⟩
  case install => exact execInstall_stuck
  case captures => exact fun hp ha => ⟨captureReg_stuck hp ha, captureReg_stuck hp ha⟩

end Sys2Proof.Proofs
end

section
/-!
PROOFS. The layout of a command record (30_encoding.md R60 to R62, log 7): each field is read back from the bytes it was
written to, whatever bytes follow, so the record in the bytes of a record is that record.
-/

namespace Sys2Proof.Proofs

/-! ### One number among the bytes -/

theorem bytesAt_append_right {pre bs : List Byte} {off len : Nat} (h : pre.length ≤ off) :
    bytesAt (pre ++ bs) off len = bytesAt bs (off - pre.length) len := by
  rw [bytesAt, List.drop_append, List.drop_eq_nil_of_le h, List.nil_append, bytesAt]

/-- A field of at most 8n bits, written in the first `n` bytes, is read back from them. -/
theorem ofNat_bytesAt_leBytes {w n : Nat} (x : BitVec w) (bs : List Byte) (hw : w ≤ 8 * n) :
    BitVec.ofNat w (bytesAt (leBytes n x.toNat ++ bs) 0 n) = x := by
  have hfit : x.toNat < 256 ^ n :=
    x.isLt.trans_le (pow_256_eq_two_pow n ▸ Nat.pow_le_pow_right (by decide) hw)
  rw [bytesAt, List.drop_zero, List.take_left' (leBytes_length n _), leValue_leBytes, Nat.mod_eq_of_lt hfit,
    BitVec.ofNat_toNat, BitVec.setWidth_eq]

/-! ### The one- and two-bit fields

The widths stay sums (`-Nat.reduceAdd`): the rules about an appended bit vector match its width as a sum. -/

theorem fieldFlags_extract (f : FieldRecord) :
    (fieldFlags f).extractLsb' 0 1 = f.g ∧ (fieldFlags f).extractLsb' 1 1 = f.db ∧
    (fieldFlags f).extractLsb' 2 1 = f.l ∧ (fieldFlags f).extractLsb' 3 1 = f.avl ∧
    (fieldFlags f).extractLsb' 4 1 = f.p ∧ (fieldFlags f).extractLsb' 5 2 = f.dpl ∧
    (fieldFlags f).extractLsb' 7 1 = f.s ∧ (fieldFlags f).extractLsb' 8 1 = f.e ∧
    (fieldFlags f).extractLsb' 9 1 = f.dc ∧ (fieldFlags f).extractLsb' 10 1 = f.rw ∧
    (fieldFlags f).extractLsb' 11 1 = f.a := by
  simp [fieldFlags, BitVec.extractLsb'_append_eq_of_le, BitVec.extractLsb'_append_eq_right, -Nat.reduceAdd]

theorem segFlags_extract (q : SegParams) :
    (segFlags q).extractLsb' 0 1 = q.g ∧ (segFlags q).extractLsb' 1 1 = q.db ∧
    (segFlags q).extractLsb' 2 1 = q.l ∧ (segFlags q).extractLsb' 3 2 = q.dpl ∧
    (segFlags q).extractLsb' 5 1 = q.kind ∧ (segFlags q).extractLsb' 6 1 = q.p := by
  simp [segFlags, BitVec.extractLsb'_append_eq_of_le, BitVec.extractLsb'_append_eq_right, -Nat.reduceAdd]

/-! ### The records -/

@[simp] theorem fieldBytes_length (f : FieldRecord) : (fieldBytes f).length = 18 := by simp [fieldBytes]

@[simp] theorem segBytes_length (q : SegParams) : (segBytes q).length = 13 := by simp [segBytes]

@[simp] theorem recordBytes_length (r : CommandRecord) : (recordBytes r).length = recordLen := by
  simp [recordBytes, recordLen]

theorem fieldOfBytes_fieldBytes (f : FieldRecord) (bs : List Byte) : fieldOfBytes (fieldBytes f ++ bs) = f := by
  simp [fieldOfBytes, fieldBytes, bytesAt_append_right, ofNat_bytesAt_leBytes, fieldFlags_extract]

theorem segOfBytes_segBytes (q : SegParams) (bs : List Byte) : segOfBytes (segBytes q ++ bs) = q := by
  simp [segOfBytes, segBytes, bytesAt_append_right, ofNat_bytesAt_leBytes, segFlags_extract]

theorem recordFromBytes_recordBytes (r : CommandRecord) (rest : List Byte) :
    recordFromBytes (recordBytes r ++ rest) = r := by
  simp [recordFromBytes, recordBytes, bytesAt_append_right, ofNat_bytesAt_leBytes, List.drop_append,
    List.drop_eq_nil_of_le, fieldOfBytes_fieldBytes, segOfBytes_segBytes]

theorem recordOfBytes_recordBytes (r : CommandRecord) (rest : List Byte) :
    recordOfBytes (recordBytes r ++ rest) = .ok (r, rest) := by
  have hlen : recordLen ≤ (recordBytes r ++ rest).length := by simp
  rw [recordOfBytes, if_pos hlen, recordFromBytes_recordBytes, List.drop_left' (recordBytes_length r)]

end Sys2Proof.Proofs
end

section
/-!
PROOFS. Decoding and encoding (30_encoding.md R60, R66 to R72): the decoder reads a command from the part of a record
that its opcode uses, and that part is the record the encoder writes for the command. The round trips, the reserved
opcodes and the assembler's records follow from it.
-/

namespace Sys2Proof.Proofs

open Sys2Proof.Machine

variable {r : CommandRecord} {i : Instr}

/-! ### The round trip from a command -/

@[simp] theorem encode_op (i : Instr) : (encode i).op = opcodeOf i := by cases i <;> rfl

theorem decodeRecord_encode (i : Instr) : decodeRecord (encode i) = .ok i := by cases i <;> rfl

theorem decodeBytes_recordBytes (hd : decodeRecord r = .ok i) (rest : List Byte) :
    decodeBytes (recordBytes r ++ rest) = .ok (i, rest) := by
  simp only [decodeBytes, recordOfBytes_recordBytes, hd]

/-- Settles O2: the bytes hold the record the encoder writes, and that record decodes to the command. -/
theorem decodeBytesOfEncodedCommand : Obligations.DecodeBytesOfEncodedCommand :=
  fun i rest => decodeBytes_recordBytes (decodeRecord_encode i) rest

/-- Settles O1: the first three byte strings are those of a command and what follows it; the last two hold a reserved
opcode and one byte only. -/
theorem writtenOutRecordsDecode : Obligations.WrittenOutRecordsDecode := by
  refine ⟨?load, ?tbuild, ?install, ?reserved, ?truncated⟩
  case load => exact decodeBytesOfEncodedCommand (.load 0x1000#64 3#32 3#2) []
  case tbuild => exact decodeBytesOfEncodedCommand (.tbuild 0x1000#64 0x2000#64 0x201#32) [0xAA#8]
  case install => exact decodeBytesOfEncodedCommand (.install 0x0807060504030201#64 0#2) []
  case reserved => rfl
  case truncated => rfl

/-! ### The opcodes (30_encoding.md R66, R68) -/

/-- The opcodes the decoder knows, in the order in which it looks for them. -/
def assignedOpcodes : List (BitVec 8) :=
  [opEncode, opEncseg, opDecode, opChkent, opTbuild, opTcheck, opTview, opInstall, opCapture, opCapldt, opLoad]

theorem opAssigned_iff : r.opAssigned = true ↔ 1 ≤ r.op.toNat ∧ r.op.toNat ≤ 11 := by
  simp [CommandRecord.opAssigned]

/-- The decoder's eleven opcodes are the numbers 1 to 11, none left out. -/
theorem opAssigned_iff_mem : r.opAssigned = true ↔ r.op ∈ assignedOpcodes := by
  simp only [opAssigned_iff, assignedOpcodes, List.mem_cons, List.not_mem_nil, or_false, opEncode, opEncseg, opDecode,
    opChkent, opTbuild, opTcheck, opTview, opInstall, opCapture, opCapldt, opLoad]
  bv_omega

theorem decodeRecord_of_reserved (h : ¬r.opAssigned = true) : decodeRecord r = .error (.reservedOpcode r.op) := by
  simp only [opAssigned_iff_mem, assignedOpcodes, List.mem_cons, List.not_mem_nil, or_false, not_or] at h
  simp only [decodeRecord, h, if_false]

/-! ### The part of a record its opcode uses -/

/-- The record with zero in every field its opcode does not use (30_encoding.md R60). -/
def usedPart (r : CommandRecord) : CommandRecord :=
  { op := r.op
    a0 := r.a0
    a1 := if usesA1 r.op then r.a1 else 0
    n := if usesN r.op then r.n else 0
    cpl := if usesCpl r.op then r.cpl else 0
    f := if usesF r.op then r.f else FieldRecord.zero
    sp := if usesSp r.op then r.sp else SegParams.zero }

/-- The decoder reads the used part of a record and nothing else: it is the record of the command it answers. -/
theorem decodeRecord_of_assigned (h : r.opAssigned = true) :
    ∃ i, decodeRecord r = .ok i ∧ encode i = usedPart r := by
  rw [opAssigned_iff_mem] at h
  obtain ⟨op, a0, a1, n, cpl, f, sp⟩ := r
  fin_cases h <;> exact ⟨_, rfl, rfl⟩

theorem encode_of_decodeRecord (hd : decodeRecord r = .ok i) : encode i = usedPart r := by
  by_cases h : r.opAssigned = true
  · obtain ⟨j, hj, henc⟩ := decodeRecord_of_assigned h
    obtain rfl : j = i := Except.ok.inj (hj.symm.trans hd)
    exact henc
  · rw [decodeRecord_of_reserved h] at hd
    cases hd

theorem decodeRecord_usedPart (h : r.opAssigned = true) : decodeRecord (usedPart r) = decodeRecord r := by
  obtain ⟨i, hd, henc⟩ := decodeRecord_of_assigned h
  rw [hd, ← henc, decodeRecord_encode]

/-- A well-formed record differs from its used part in `cpl` at most. -/
theorem usedPart_of_wellFormed (h : r.wellFormed = true) : { usedPart r with cpl := r.cpl } = r := by
  simp only [CommandRecord.wellFormed, Bool.and_eq_true, Bool.or_eq_true, beq_iff_eq] at h
  obtain ⟨⟨⟨⟨-, ha1⟩, hn⟩, hf⟩, hsp⟩ := h
  ext1
  case a1 => exact ite_eq_left_iff.2 fun hu => (ha1.resolve_left hu).symm
  case n => exact ite_eq_left_iff.2 fun hu => (hn.resolve_left hu).symm
  case f => exact ite_eq_left_iff.2 fun hu => (hf.resolve_left hu).symm
  case sp => exact ite_eq_left_iff.2 fun hu => (hsp.resolve_left hu).symm
  all_goals rfl

/-- Settles O3: the command's record is the used part, and a well-formed record is that but for `cpl`. -/
theorem encodeGivesBackWellFormedRecord : Obligations.EncodeGivesBackWellFormedRecord := by
  intro r i hwf hd
  rw [encode_of_decodeRecord hd, usedPart_of_wellFormed hwf]

/-- Settles O4: two records of one assigned opcode have one used part; a reserved opcode is rejected whatever stands
beside it. -/
theorem unusedFieldsAreIgnored : Obligations.UnusedFieldsAreIgnored := by
  intro r r' hop ha0 ha1 hn hcpl hf hsp
  by_cases h : r.opAssigned = true
  · have h' : r'.opAssigned = true := by rwa [opAssigned_iff, ← hop, ← opAssigned_iff]
    have hused : usedPart r = usedPart r' := by
      ext1
      case op => exact hop
      case a0 => exact ha0 h
      all_goals simp only [usedPart, ← hop]
      case a1 => exact if_ctx_congr Iff.rfl ha1 fun _ => rfl
      case n => exact if_ctx_congr Iff.rfl hn fun _ => rfl
      case cpl => exact if_ctx_congr Iff.rfl hcpl fun _ => rfl
      case f => exact if_ctx_congr Iff.rfl hf fun _ => rfl
      case sp => exact if_ctx_congr Iff.rfl hsp fun _ => rfl
    rw [← decodeRecord_usedPart h, hused, decodeRecord_usedPart h']
  · have h' : ¬r'.opAssigned = true := by rwa [opAssigned_iff, ← hop, ← opAssigned_iff]
    rw [decodeRecord_of_reserved h, decodeRecord_of_reserved h', hop]

/-- Settles O5: a step on a reserved opcode reports IllegalCommand, and an assigned opcode is that of the command
read. -/
theorem reservedOpcodeIsIllegalCommand : Obligations.ReservedOpcodeIsIllegalCommand := by
  refine ⟨fun s r rest hq hres => ?_, fun r hlo hhi => ?_⟩
  · have h : ¬r.opAssigned = true := by rw [opAssigned_iff]; bv_omega
    exact step_of_reserved hq (decodeRecord_of_reserved h)
  · obtain ⟨i, hd, henc⟩ := decodeRecord_of_assigned (opAssigned_iff.2 ⟨hlo, hhi⟩)
    have hop : (encode i).op = (usedPart r).op := congrArg CommandRecord.op henc
    exact ⟨i, hd, (encode_op i).symm.trans hop⟩

/-! ### The assembler (30_encoding.md R71, R72) -/

theorem encode_wellFormed (i : Instr) : (encode i).wellFormed = true := by
  cases i with
  | encode a0 f => exact Laws.EncodesWellFormed.encode a0 f
  | encseg a0 sp => exact Laws.EncodesWellFormed.encseg a0 sp
  | decode a0 => exact Laws.EncodesWellFormed.decode a0
  | chkent a0 => exact Laws.EncodesWellFormed.chkent a0
  | tbuild a0 a1 n => exact Laws.EncodesWellFormed.tbuild a0 a1 n
  | tcheck a0 n => exact Laws.EncodesWellFormed.tcheck a0 n
  | tview a0 n => exact Laws.EncodesWellFormed.tview a0 n
  | install a0 cpl => exact Laws.EncodesWellFormed.install a0 cpl
  | capture a0 cpl => exact Laws.EncodesWellFormed.capture a0 cpl
  | capldt a0 cpl => exact Laws.EncodesWellFormed.capldt a0 cpl
  | load a0 n cpl => exact Laws.EncodesWellFormed.load a0 n cpl

theorem wellFormed_setCpl (r : CommandRecord) (cpl : BitVec 2) : { r with cpl := cpl }.wellFormed = r.wellFormed := rfl

/-- An assembled record is the encoder's record of a command, with the line's ring. -/
theorem assembleLine_eq_some {x : AsmLine} (h : assembleLine x = some r) :
    ∃ (i : Instr) (cpl : BitVec 2), r = { encode i with cpl := cpl } := by
  simp only [assembleLine, Option.bind_eq_bind, Option.bind_eq_some_iff] at h
  obtain ⟨cpl, -, i, -, hr⟩ := h
  exact ⟨i, cpl, (Option.some.inj hr).symm⟩

/-- Settles O7: the encoder's records are well-formed, and `cpl` is no part of that. -/
theorem assemblerWritesUnusedFieldsZero : Obligations.AssemblerWritesUnusedFieldsZero := by
  intro x r h
  obtain ⟨i, cpl, rfl⟩ := assembleLine_eq_some h
  rw [wellFormed_setCpl, encode_wellFormed]

/-- NULLENT's thirteen zeros are the zero field record. -/
theorem commandOf_encode_zeros (cpl : BitVec 2) (a0 : Nat) :
    commandOf cpl .encode (.num a0 :: List.replicate 13 (.num 0)) = addrCommand (.encode · FieldRecord.zero) a0 := by
  have hzeros : fieldRecordOf (List.replicate 13 0) = some FieldRecord.zero := by rfl
  have hnums : numbersOf (List.replicate 13 (.num 0)) = some (List.replicate 13 0) := by rfl
  simp only [commandOf, hnums, hzeros, addrCommand, Option.bind_eq_bind, Option.bind_some, Option.pure_def,
    Option.map_eq_bind, Function.comp_def]

/-- Settles O8: the expansions give the same operands to the same command; only NULLENT's zeros have to be read as a
field record first. -/
theorem pseudoInstructionsAreTheirExpansions : Obligations.PseudoInstructionsAreTheirExpansions := by
  intro cpl a0 dpl kind
  refine ⟨?flatseg, ?flatcode64, ?nullent, ?save, ?restore⟩
  case flatseg => rfl
  case flatcode64 => rfl
  case nullent => exact (commandOf_encode_zeros cpl a0).symm
  case save => rfl
  case restore => rfl

end Sys2Proof.Proofs
end

section
/-!
PROOFS. Register images (30_encoding.md R65): the limit in bits 15..0 and the base in bits 79..16, and the same two in
the image's ten bytes.
-/

namespace Sys2Proof.Proofs

open Sys2Proof.Config Sys2Proof.Machine Sys2Proof.Safety

@[simp] theorem packReg_limit (v : RegValue) : (packReg v).extractLsb' 0 16 = v.limit :=
  BitVec.extractLsb'_append_eq_right

@[simp] theorem packReg_base (v : RegValue) : (packReg v).extractLsb' 16 64 = v.base :=
  BitVec.extractLsb'_append_eq_left

theorem unpackReg_packReg (v : RegValue) : unpackReg (packReg v) = v := by
  rw [unpackReg, packReg_limit, packReg_base]

theorem packReg_unpackReg (x : BitVec 80) : packReg (unpackReg x) = x := by
  have happend : x.extractLsb' 16 64 ++ x.extractLsb' 0 16 = x.extractLsb' 0 80 :=
    BitVec.extractLsb'_append_extractLsb'_eq_extractLsb' rfl
  exact happend.trans BitVec.extractLsb'_eq_self

/-- The register value at `a` says what its two parts read as. -/
theorem memRead_of_regAt {m : Memory} {a : Nat} {v : RegValue} (h : regAt m a = v) :
    memRead m a 2 = v.limit.toNat ∧ memRead m (a + 2) 8 = v.base.toNat := by
  subst h
  exact ⟨(Nat.mod_eq_of_lt (memRead_lt m a 2)).symm, (Nat.mod_eq_of_lt (memRead_lt m (a + 2) 8)).symm⟩

theorem regAt_memWrite_packReg (m : Memory) (a : Nat) (v : RegValue) :
    regAt (memWrite m a 10 (packReg v).toNat) a = v :=
  regAt_of_memRead (memRead_memWrite_same (packReg v).isLt)

/-- Settles O22: the halves of the concatenation, and the value that stands where an image has been stored. -/
theorem registerImageIsTheLimitThenTheBase : Obligations.RegisterImageIsTheLimitThenTheBase :=
  ⟨unpackReg_packReg, packReg_unpackReg, fun v => ⟨packReg_limit v, packReg_base v⟩,
    fun m a v => memRead_of_regAt (regAt_memWrite_packReg m a v)⟩

end Sys2Proof.Proofs
end

section
/-!
PROOFS. The entry codec (40_entry_codec.md R80 to R88): the classic word byte by byte and field by field, the round trip
between field records and images, and what the four commands answer. Both the entry ENCODE stores and the one DECODE
reads are the image of a field record in memory, and where that image stands the record's bytes stand.
-/

namespace Sys2Proof.Proofs

open Sys2Proof.Config Sys2Proof.Machine Sys2Proof.Safety

variable {k : Stride} {f : FieldRecord} {x : BitVec 96} {m : Memory} {a : Nat} {s : State} {a0 : Addr}

/-! ### What stands in the classic word (40_entry_codec.md R80)

As in the record's layout, the widths stay sums (`-Nat.reduceAdd`). -/

theorem accessByte_flags (f : FieldRecord) :
    (accessByte f).extractLsb' 0 1 = f.a ∧ (accessByte f).extractLsb' 1 1 = f.rw ∧
    (accessByte f).extractLsb' 2 1 = f.dc ∧ (accessByte f).extractLsb' 3 1 = f.e ∧
    (accessByte f).extractLsb' 4 1 = f.s ∧ (accessByte f).extractLsb' 5 2 = f.dpl ∧
    (accessByte f).extractLsb' 7 1 = f.p := by
  simp [accessByte, BitVec.extractLsb'_append_eq_of_le, BitVec.extractLsb'_append_eq_right, -Nat.reduceAdd]

theorem granByte_flags (f : FieldRecord) :
    (granByte f).extractLsb' 4 1 = f.avl ∧ (granByte f).extractLsb' 5 1 = f.l ∧
    (granByte f).extractLsb' 6 1 = f.db ∧ (granByte f).extractLsb' 7 1 = f.g := by
  simp [granByte, BitVec.extractLsb'_append_eq_of_le, BitVec.extractLsb'_append_eq_right, -Nat.reduceAdd]

theorem classicWord_flags (f : FieldRecord) :
    (classicWord f).extractLsb' 40 1 = f.a ∧ (classicWord f).extractLsb' 41 1 = f.rw ∧
    (classicWord f).extractLsb' 42 1 = f.dc ∧ (classicWord f).extractLsb' 43 1 = f.e ∧
    (classicWord f).extractLsb' 44 1 = f.s ∧ (classicWord f).extractLsb' 45 2 = f.dpl ∧
    (classicWord f).extractLsb' 47 1 = f.p ∧ (classicWord f).extractLsb' 52 1 = f.avl ∧
    (classicWord f).extractLsb' 53 1 = f.l ∧ (classicWord f).extractLsb' 54 1 = f.db ∧
    (classicWord f).extractLsb' 55 1 = f.g := by
  simp [classicWord, BitVec.extractLsb'_append_eq_of_le, BitVec.extractLsb'_append_eq_of_add_le, accessByte_flags,
    granByte_flags, -Nat.reduceAdd]

theorem classicWord_limit (f : FieldRecord) :
    (classicWord f).extractLsb' 48 4 ++ (classicWord f).extractLsb' 0 16 = f.limit.extractLsb' 0 20 := by
  have hhigh : (classicWord f).extractLsb' 48 4 = f.limit.extractLsb' 16 4 := by
    simp [classicWord, granByte, BitVec.extractLsb'_append_eq_of_le, BitVec.extractLsb'_append_eq_of_add_le,
      -Nat.reduceAdd]
  have hlow : (classicWord f).extractLsb' 0 16 = f.limit.extractLsb' 0 16 := BitVec.extractLsb'_append_eq_right
  rw [hhigh, hlow]
  exact BitVec.extractLsb'_append_extractLsb'_eq_extractLsb' rfl

theorem classicWord_base (f : FieldRecord) :
    (classicWord f).extractLsb' 56 8 ++ (classicWord f).extractLsb' 16 24 = f.base.extractLsb' 0 32 := by
  have hhigh : (classicWord f).extractLsb' 56 8 = f.base.extractLsb' 24 8 := by
    simp [classicWord, BitVec.extractLsb'_append_eq_of_le, -Nat.reduceAdd]
  have hlow : (classicWord f).extractLsb' 16 24 = f.base.extractLsb' 0 24 := by
    simp [classicWord, BitVec.extractLsb'_append_eq_of_le, BitVec.extractLsb'_append_eq_of_add_le, -Nat.reduceAdd]
  rw [hhigh, hlow]
  exact BitVec.extractLsb'_append_extractLsb'_eq_extractLsb' rfl

theorem classicWord_bytes (f : FieldRecord) :
    (classicWord f).extractLsb' 0 8 = f.limit.extractLsb' 0 8 ∧
    (classicWord f).extractLsb' 8 8 = f.limit.extractLsb' 8 8 ∧
    (classicWord f).extractLsb' 16 8 = f.base.extractLsb' 0 8 ∧
    (classicWord f).extractLsb' 24 8 = f.base.extractLsb' 8 8 ∧
    (classicWord f).extractLsb' 32 8 = f.base.extractLsb' 16 8 ∧
    (classicWord f).extractLsb' 40 8 = accessByte f ∧
    (classicWord f).extractLsb' 48 8 = granByte f ∧
    (classicWord f).extractLsb' 56 8 = f.base.extractLsb' 24 8 := by
  simp [classicWord, BitVec.extractLsb'_append_eq_of_le, BitVec.extractLsb'_append_eq_of_add_le,
    BitVec.extractLsb'_extractLsb'_of_le, -Nat.reduceAdd]

/-! ### The image of a field record -/

theorem packEntry_extract {start len : Nat} (k : Stride) (f : FieldRecord) (h : start + len ≤ 64) :
    (packEntry k f).extractLsb' start len = (classicWord f).extractLsb' start len := by
  cases k <;> exact BitVec.extractLsb'_append_eq_of_add_le h

theorem reservedField_packEntry (k : Stride) (hrsv : f.rsv = 0) : reservedField k (packEntry k f) = 0 := by
  cases k with
  | eight => rfl
  | twelve => exact packEntry_high .twelve hrsv

/-- A stored image has the entry's bytes and no more. -/
theorem packEntry_lt (k : Stride) (f : FieldRecord) : (packEntry k f).toNat < 256 ^ k.bytes := by
  cases k with
  | eight =>
    have hword : packEntry .eight f = (classicWord f).setWidth 96 := (BitVec.setWidth_eq_append (by decide)).symm
    rw [hword, BitVec.toNat_setWidth_of_le (by decide)]
    exact (classicWord f).isLt
  | twelve => exact (packEntry .twelve f).isLt

/-! ### The round trip (40_entry_codec.md R88) -/

/-- A value that fits its `n` low bits is what they hold. -/
theorem setWidth_extractLsb'_of_lt {w n : Nat} {v : BitVec w} (h : v.toNat < 2 ^ n) :
    (v.extractLsb' 0 n).setWidth w = v := by
  apply BitVec.eq_of_toNat_eq
  rw [BitVec.toNat_setWidth, BitVec.extractLsb'_toNat, Nat.shiftRight_zero, Nat.mod_eq_of_lt h, Nat.mod_eq_of_lt v.isLt]

/-- A legal limit fits the 20 bits, and a legal base the 32 bits, that the image has for them. -/
theorem unpackEntry_packEntry (k : Stride) (hf : checkFields f = none) : unpackEntry k (packEntry k f) = f := by
  obtain ⟨hlimit, hbase, hrsv⟩ := checkFields_none.1 hf
  have hl : (f.limit.extractLsb' 0 20).setWidth 32 = f.limit := setWidth_extractLsb'_of_lt (Nat.lt_succ_of_le hlimit)
  have hb : (f.base.extractLsb' 0 32).setWidth 64 = f.base := setWidth_extractLsb'_of_lt (Nat.lt_succ_of_le hbase)
  have hr : reservedField k (packEntry k f) = f.rsv := (reservedField_packEntry k hrsv).trans hrsv.symm
  simp [unpackEntry, packEntry_extract, classicWord_limit, classicWord_base, classicWord_flags, hl, hb, hr]

theorem accessByte_unpackEntry (k : Stride) (x : BitVec 96) : accessByte (unpackEntry k x) = x.extractLsb' 40 8 := by
  simp [accessByte, unpackEntry, BitVec.extractLsb'_append_extractLsb'_eq_extractLsb', -Nat.reduceAdd]

theorem granByte_unpackEntry (k : Stride) (x : BitVec 96) : granByte (unpackEntry k x) = x.extractLsb' 48 8 := by
  simp [granByte, unpackEntry, BitVec.extractLsb'_setWidth_of_le, BitVec.extractLsb'_append_eq_left,
    BitVec.extractLsb'_append_extractLsb'_eq_extractLsb', -Nat.reduceAdd]

theorem classicWord_unpackEntry (k : Stride) (x : BitVec 96) : classicWord (unpackEntry k x) = x.extractLsb' 0 64 := by
  rw [classicWord, granByte_unpackEntry, accessByte_unpackEntry]
  simp [unpackEntry, BitVec.extractLsb'_setWidth_of_le, BitVec.extractLsb'_append_eq_left,
    BitVec.extractLsb'_append_eq_of_add_le, BitVec.extractLsb'_append_extractLsb'_eq_extractLsb', -Nat.reduceAdd]

theorem reservedField_of_high (k : Stride) (hx : x.extractLsb' 64 32 = 0) : reservedField k x = 0 := by
  cases k with
  | eight => rfl
  | twelve => exact hx

theorem packEntry_unpackEntry (k : Stride) (hx : x.extractLsb' 64 32 = 0) : packEntry k (unpackEntry k x) = x := by
  have hpack : packEntry k (unpackEntry k x) = x.extractLsb' 64 32 ++ classicWord (unpackEntry k x) := by
    cases k with
    | eight => rw [hx]; rfl
    | twelve => rfl
  have happend : x.extractLsb' 64 32 ++ x.extractLsb' 0 64 = x.extractLsb' 0 96 :=
    BitVec.extractLsb'_append_extractLsb'_eq_extractLsb' rfl
  rw [hpack, classicWord_unpackEntry, happend, BitVec.extractLsb'_eq_self]

/-- Settles O9: each field is read from where it was put, and the pieces of an image, put together again, are the
image. -/
theorem packAndUnpackEntryAreInverse : Obligations.PackAndUnpackEntryAreInverse := by
  refine ⟨fun k f hf => ⟨unpackEntry_packEntry k hf, packEntry_high k (rsv_of_checkFields hf)⟩, fun k x hx => ?_⟩
  exact ⟨packEntry_unpackEntry k hx, checkFields_none.2 (unpackEntry_legal (reservedField_of_high k hx))⟩

/-! ### Images in memory -/

/-- Where the image of a field record stands, its bytes stand. -/
theorem entryBytes_of_entryImage (h : entryImage k m a = packEntry k f) : EntryBytes k m a f := by
  have hbyte (j : Nat) (hj : j < k.bytes) : readByte m (a + j) = (packEntry k f).extractLsb' (8 * j) 8 := by
    rw [← h, entryImage_byte, if_pos hj]
  have hclassic (j : Nat) (hj : j < 8) : readByte m (a + j) = (classicWord f).extractLsb' (8 * j) 8 :=
    (hbyte j (hj.trans_le (by cases k <;> decide))).trans (packEntry_extract k f (by omega))
  obtain ⟨h0, h1, h2, h3, h4, h5, h6, h7⟩ := classicWord_bytes f
  constructor
  case reserved =>
    rintro rfl j hj
    rw [Nat.add_assoc, hbyte (8 + j) (Nat.add_lt_add_left hj 8)]
    exact (BitVec.extractLsb'_append_eq_of_le (by omega)).trans (by congr 1; omega)
  case byte0 => exact (hclassic 0 (by decide)).trans h0
  case byte1 => exact (hclassic 1 (by decide)).trans h1
  case byte2 => exact (hclassic 2 (by decide)).trans h2
  case byte3 => exact (hclassic 3 (by decide)).trans h3
  case byte4 => exact (hclassic 4 (by decide)).trans h4
  case byte5 => exact (hclassic 5 (by decide)).trans h5
  case byte6 => exact (hclassic 6 (by decide)).trans h6
  case byte7 => exact (hclassic 7 (by decide)).trans h7

theorem entryImage_memWrite (k : Stride) (f : FieldRecord) (m : Memory) (a : Nat) :
    entryImage k (memWrite m a k.bytes (packEntry k f).toNat) a = packEntry k f := by
  rw [entryImage, memRead_memWrite_same (packEntry_lt k f), BitVec.ofNat_toNat, BitVec.setWidth_eq]

/-- An image in memory has nothing above the classic word when its reserved field is zero: at stride 8 it is no longer
than that. -/
theorem entryImage_high (h : entryReservedSet k m a = false) : (entryImage k m a).extractLsb' 64 32 = 0 := by
  cases k with
  | eight =>
    have hlt := memRead_lt m a 8
    apply BitVec.eq_of_toNat_eq
    rw [BitVec.extractLsb'_toNat, entryImage, BitVec.toNat_ofNat, Nat.shiftRight_eq_div_pow]
    change memRead m a 8 % 2 ^ 96 / 2 ^ 64 % 2 ^ 32 = 0
    omega
  | twelve => exact reservedField_of_not_set h

theorem entryBytes_unpackEntry (h : entryReservedSet k m a = false) :
    EntryBytes k m a (unpackEntry k (entryImage k m a)) :=
  entryBytes_of_entryImage (packEntry_unpackEntry k (entryImage_high h)).symm

/-! ### ENCODE and ENCSEG (40_entry_codec.md R83 to R85) -/

theorem checkFields_limitTooWide (hl : limitFieldMax < f.limit.toNat) : checkFields f = some .limitTooWide :=
  if_pos hl

theorem checkFields_baseTooWide (hl : f.limit.toNat ≤ limitFieldMax) (hb : baseFieldMax < f.base.toNat) :
    checkFields f = some .baseTooWide := by
  rw [checkFields, if_neg hl.not_gt, if_pos hb]

theorem checkFields_reservedSet (hl : f.limit.toNat ≤ limitFieldMax) (hb : f.base.toNat ≤ baseFieldMax)
    (hr : f.rsv ≠ 0) : checkFields f = some .reservedSet := by
  rw [checkFields, if_neg hl.not_gt, if_neg hb.not_gt, if_pos hr]

theorem storeEntry_failsWith {r : Reason} (hf : checkFields f = some r) :
    FailsWith (storeEntry a0 f s) s (statusInvalid r) := by
  rw [storeEntry, hf]
  rfl

theorem storeEntry_of_legal (hf : checkFields f = none)
    (ha : admitted s.params a0.toNat s.params.stride.bytes = true) :
    storeEntry a0 f s = .next (finishOk (storedEntry a0 f s)) :=
  (orFail_of_passed hf).trans (whenAdmitted_pos ha)

/-- What a completed ENCODE of `f` at `a0` answers. -/
def StoresEntry (o : Result) (a0 : Addr) (f : FieldRecord) (s : State) : Prop :=
  ∃ m, o = .next
      { s with
        mem := m
        rspEntry := some (BitVec.ofNat 96 (memRead m a0.toNat s.params.stride.bytes))
        rspStatus := some 0x00#8 } ∧
    EntryBytes s.params.stride m a0.toNat f ∧ KeptOutside s.mem m a0.toNat s.params.stride.bytes

theorem storeEntry_storesEntry (hf : checkFields f = none)
    (ha : admitted s.params a0.toNat s.params.stride.bytes = true) : StoresEntry (storeEntry a0 f s) a0 f s := by
  have himage := entryImage_memWrite s.params.stride f s.mem a0.toNat
  refine ⟨_, ?_, entryBytes_of_entryImage himage, memWrite_keptOutside _ _ _ _⟩
  rw [storeEntry_of_legal hf ha, ← entryImage, himage]
  rfl

/-- Settles O10: the checks in R83's order, then the packed image written and reported. -/
theorem encodeStoresTheDescriptorOrReportsTheFirstFailure :
    Obligations.EncodeStoresTheDescriptorOrReportsTheFirstFailure := by
  intro s a0 f
  refine ⟨fun hl => ?limit, fun hl hb => ?base, fun hl hb hr => ?reserved, fun hl hb hr ha => ?legal⟩
  case limit => exact storeEntry_failsWith (checkFields_limitTooWide hl)
  case base => exact storeEntry_failsWith (checkFields_baseTooWide hl hb)
  case reserved => exact storeEntry_failsWith (checkFields_reservedSet hl hb hr)
  case legal => exact storeEntry_storesEntry (checkFields_none.2 ⟨hl, hb, hr⟩) ha

/-- Settles O11: ENCSEG is ENCODE of the record of its parameters, whose reserved field is zero. -/
theorem encsegStoresTheSegmentOrReportsTheFirstFailure :
    Obligations.EncsegStoresTheSegmentOrReportsTheFirstFailure := by
  intro s a0 q
  refine ⟨fun hl => ?limit, fun hl hb => ?base, fun hl hb ha => ?legal⟩
  case limit => exact storeEntry_failsWith (f := segFields q) (checkFields_limitTooWide hl)
  case base => exact storeEntry_failsWith (f := segFields q) (checkFields_baseTooWide hl hb)
  case legal => exact storeEntry_storesEntry (segFields_checkFields hl hb) ha

/-! ### DECODE and CHKENT (40_entry_codec.md R86, R87) -/

theorem withEntry_failsWith {done : BitVec 96 → State} (ha : admitted s.params a0.toNat s.params.stride.bytes = true)
    (hset : ReservedBytesSet s.params.stride s.mem a0.toNat) : FailsWith (withEntry a0 s done) s 0x31#8 := by
  rw [withEntry, whenAdmitted_pos ha, if_pos (entryReservedSet_iff.2 hset)]
  rfl

theorem withEntry_of_clear {done : BitVec 96 → State} (ha : admitted s.params a0.toNat s.params.stride.bytes = true)
    (hr : entryReservedSet s.params.stride s.mem a0.toNat = false) :
    withEntry a0 s done = .next (finishOk (done (entryImage s.params.stride s.mem a0.toNat))) := by
  rw [withEntry, whenAdmitted_pos ha, hr]
  rfl

theorem execDecode_failsWith (ha : admitted s.params a0.toNat s.params.stride.bytes = true)
    (hset : ReservedBytesSet s.params.stride s.mem a0.toNat) : FailsWith (execDecode a0 s) s 0x31#8 :=
  withEntry_failsWith ha hset

theorem execDecode_of_clear (ha : admitted s.params a0.toNat s.params.stride.bytes = true)
    (hr : entryReservedSet s.params.stride s.mem a0.toNat = false) :
    execDecode a0 s =
      .next (finishOk (s.setFields (unpackEntry s.params.stride (entryImage s.params.stride s.mem a0.toNat)))) := by
  rw [execDecode, withEntry_of_clear ha hr]

theorem execChkent_failsWith (ha : admitted s.params a0.toNat s.params.stride.bytes = true)
    (hset : ReservedBytesSet s.params.stride s.mem a0.toNat) : FailsWith (execChkent a0 s) s 0x31#8 :=
  withEntry_failsWith ha hset

theorem execChkent_of_clear (ha : admitted s.params a0.toNat s.params.stride.bytes = true)
    (hr : entryReservedSet s.params.stride s.mem a0.toNat = false) : execChkent a0 s = .next (finishOk s) := by
  rw [execChkent, withEntry_of_clear ha hr]

theorem entryReservedSet_of_not_set (h : ¬ReservedBytesSet k m a) : entryReservedSet k m a = false :=
  Bool.eq_false_iff.2 (mt entryReservedSet_iff.1 h)

/-- Settles O12: an image with a zero reserved field is that of the fields unpacked from it, so their bytes stand
there. -/
theorem decodeReadsTheDescriptorOrReportsReservedSet : Obligations.DecodeReadsTheDescriptorOrReportsReservedSet := by
  intro s a0 ha
  refine ⟨execDecode_failsWith ha, fun hclear => ?_⟩
  have hr := entryReservedSet_of_not_set hclear
  exact ⟨_, execDecode_of_clear ha hr, entryBytes_unpackEntry hr, unpackEntry_legal (reservedField_of_not_set hr)⟩

/-- Settles O13: the check of DECODE without its effect; at stride 8 no byte is reserved. -/
theorem chkentReportsReservedSetOrOk : Obligations.ChkentReportsReservedSetOrOk := by
  intro s a0 ha
  have hok (hclear : ¬ReservedBytesSet s.params.stride s.mem a0.toNat) :
      exec (.chkent a0) s = .next { s with rspStatus := some 0x00#8 } :=
    execChkent_of_clear ha (entryReservedSet_of_not_set hclear)
  refine ⟨execChkent_failsWith ha, hok, fun h8 => hok ?_⟩
  rintro ⟨h12, -⟩
  exact absurd (h8.symm.trans h12) (by decide)

/-! ### ENCODE, then DECODE -/

theorem entryReservedSet_of_entryImage (himage : entryImage k m a = packEntry k f) (hrsv : f.rsv = 0) :
    entryReservedSet k m a = false := by
  rw [entryReservedSet, himage, reservedField_packEntry k hrsv]
  rfl

/-- DECODE gives a legal field record back from its image. -/
theorem execDecode_of_entryImage (ha : admitted s.params a0.toNat s.params.stride.bytes = true)
    (himage : entryImage s.params.stride s.mem a0.toNat = packEntry s.params.stride f) (hf : checkFields f = none) :
    execDecode a0 s = .next (finishOk (s.setFields f)) := by
  have hr := entryReservedSet_of_entryImage himage (rsv_of_checkFields hf)
  rw [execDecode_of_clear ha hr, himage, unpackEntry_packEntry _ hf]

/-- Settles O14: DECODE finds the image that ENCODE stored. -/
theorem decodeAfterEncodeGivesTheFieldsBack : Obligations.DecodeAfterEncodeGivesTheFieldsBack := by
  intro s a0 f hf ha
  have himage : entryImage s.params.stride (finishOk (storedEntry a0 f s)).mem a0.toNat = packEntry s.params.stride f :=
    entryImage_memWrite s.params.stride f s.mem a0.toNat
  exact ⟨finishOk (storedEntry a0 f s), storeEntry_of_legal hf ha, finishedOk_completed (.encode a0 f) s,
    execDecode_of_entryImage ha himage hf⟩

/-! ### The effective limit (40_entry_codec.md R82) -/

theorem effLimit_byte_toNat (limit : BitVec 20) : (effLimit limit 0).toNat = limit.toNat := by
  rw [effLimit, if_neg (by decide), BitVec.toNat_setWidth_of_le (by decide)]

/-- The limit in pages stands above twelve set bits. -/
theorem effLimit_page_toNat (limit : BitVec 20) : (effLimit limit 1).toNat = limit.toNat * 4096 + 4095 := by
  have hfit : limit.toNat <<< 12 < 2 ^ 32 := by
    have hlt := limit.isLt
    rw [Nat.shiftLeft_eq]
    omega
  rw [effLimit, if_pos rfl, BitVec.toNat_or, BitVec.toNat_shiftLeft, BitVec.toNat_setWidth_of_le (by decide),
    Nat.mod_eq_of_lt hfit]
  calc limit.toNat <<< 12 ||| 4095
      _ = limit.toNat <<< 12 + 4095 := (Nat.shiftLeft_add_eq_or_of_lt (by decide) _).symm
      _ = limit.toNat * 4096 + 4095 := by rw [Nat.shiftLeft_eq]

/-- 33 bits hold one more than any 32-bit limit. -/
theorem segSize_toNat (limit : BitVec 20) (g : BitVec 1) : (segSize limit g).toNat = (effLimit limit g).toNat + 1 := by
  have hlt := (effLimit limit g).isLt
  rw [segSize, BitVec.toNat_add, BitVec.toNat_setWidth_of_le (by decide)]
  exact Nat.mod_eq_of_lt (show (effLimit limit g).toNat + 1 < 2 ^ 33 by omega)

/-- Settles O15: the scaling for each granularity, the size one above it, and both at the largest limit. -/
theorem effectiveLimitScalesByGranularity : Obligations.EffectiveLimitScalesByGranularity :=
  ⟨fun limit => ⟨effLimit_byte_toNat limit, effLimit_page_toNat limit⟩, segSize_toNat, by decide, by decide⟩

end Sys2Proof.Proofs
end

section
/-!
PROOFS. The descriptor table (41_descriptor_table.md R101 to R105). What TBUILD, TCHECK, TVIEW and LOAD report of a
table's size is what the size check in front of all four reports; past it, the validation pass and the bytes of the built
table say the rest.
-/

namespace Sys2Proof.Proofs

open Sys2Proof.Config Sys2Proof.Machine Sys2Proof.Safety

variable {k : Stride} {m m' : Memory} {a a' c : Nat} {check : Option Reason} {s t u : State} {a0 a1 : Addr}
  {n : BitVec 32} {cpl : BitVec 2} {i : Instr} {go : Result} {r : Reason}

/-! ### The size check (41_descriptor_table.md R101) -/

theorem checkSize_emptyTable (h : n = 0) : checkSize k n.toNat = some .emptyTable := by
  subst h
  rfl

theorem checkSize_tableTooLarge (hn : n ≠ 0) (hlen : 0xFFFF < n.toNat * k.bytes - 1) :
    checkSize k n.toNat = some .tableTooLarge := by
  have hpos : n.toNat ≠ 0 := fun h => hn (BitVec.eq_of_toNat_eq h)
  exact (if_neg hpos).trans (if_pos hlen)

theorem toNat_pos_of_sizeFits (h : SizeFits k n.toNat) : 0 < n.toNat := Nat.pos_of_ne_zero h.1

theorem orFail_failsWith (h : check = some r) : FailsWith (orFail check s go) s (statusInvalid r) := by
  rw [h]
  rfl

/-- A command whose size check comes first reports an empty table. -/
theorem orFail_checkSize_empty (hn : n = 0) : FailsWith (orFail (checkSize s.params.stride n.toNat) s go) s 0x41#8 :=
  orFail_failsWith (checkSize_emptyTable hn)

/-- A command whose size check comes first reports a table that is too large. -/
theorem orFail_checkSize_tooLarge (hn : n ≠ 0) (hlen : 0xFFFF < n.toNat * s.params.stride.bytes - 1) :
    FailsWith (orFail (checkSize s.params.stride n.toNat) s go) s 0x51#8 :=
  orFail_failsWith (checkSize_tableTooLarge hn hlen)

/-! ### The validation pass and TCHECK (41_descriptor_table.md R103) -/

theorem checkTable_nullNotZero (h : ¬NullEntry k m a) : checkTable k m a c = some .nullNotZero :=
  if_pos (mt nullEntry_iff.1 h)

theorem checkTable_reservedSet (hnull : NullEntry k m a) (hset : SomeReservedSet k m a c) :
    checkTable k m a c = some .reservedSet := by
  rw [checkTable, if_neg (not_not_intro (nullEntry_iff.2 hnull)), if_pos (someReservedSet_iff.2 hset)]

theorem checkTable_some (h : checkTable k m a c = some r) : r = .nullNotZero ∨ r = .reservedSet := by
  unfold checkTable at h
  split at h
  · exact .inl (Option.some.inj h).symm
  · split at h
    · exact .inr (Option.some.inj h).symm
    · nomatch h

theorem withValidTable_failsWith {go : State} (hsize : SizeFits s.params.stride n.toNat)
    (ha : admitted s.params a0.toNat (tableLen s.params.stride n.toNat) = true)
    (hbytes : checkTable s.params.stride s.mem a0.toNat n.toNat = some r) :
    FailsWith (withValidTable a0 n s go) s (statusInvalid r) := by
  rw [withValidTable, orFail_of_passed (sizeFits_iff.2 hsize), whenAdmitted_pos ha, hbytes]
  rfl

theorem withValidTable_of_passes {go : State} (h : TablePasses a0 n s) : withValidTable a0 n s go = .next go := by
  rw [withValidTable, orFail_of_passed h.size, whenAdmitted_pos h.admission, h.bytes]

/-- Settles O17: the size check, then the two checks of the bytes in R103's order, then OK. -/
theorem tcheckReportsTheFirstFailureOrOk : Obligations.TcheckReportsTheFirstFailureOrOk := by
  intro s a0 n
  refine ⟨orFail_checkSize_empty, orFail_checkSize_tooLarge, fun hsize ha => ⟨?null, ?reserved, ?valid⟩⟩
  case null => exact fun hnull => withValidTable_failsWith hsize ha (checkTable_nullNotZero hnull)
  case reserved => exact fun hnull hset => withValidTable_failsWith hsize ha (checkTable_reservedSet hnull hset)
  case valid => exact fun hvalid => withValidTable_of_passes ⟨sizeFits_iff.2 hsize, ha, validTable_iff.2 hvalid⟩

/-! ### TVIEW (41_descriptor_table.md R104) -/

/-- A limit that has passed the size check fits its 16 bits. -/
theorem tableReg_limit_toNat (h : SizeFits k n.toNat) :
    (tableReg k a0 n.toNat).limit.toNat = n.toNat * k.bytes - 1 := by
  rw [tableReg, BitVec.toNat_ofNat]
  exact Nat.mod_eq_of_lt (Nat.lt_succ_of_le h.2)

/-- Settles O18: the image of the register value that locates the table. -/
theorem tviewDerivesTheRegisterValue : Obligations.TviewDerivesTheRegisterValue := by
  intro s a0 n
  refine ⟨orFail_checkSize_empty, orFail_checkSize_tooLarge, fun hsize => ?_⟩
  refine ⟨_, orFail_of_passed (sizeFits_iff.2 hsize), ?limit, packReg_base _⟩
  case limit => rw [packReg_limit, tableReg_limit_toNat hsize]

/-! ### TBUILD (41_descriptor_table.md R102) -/

theorem builtTable_nullEntry (hn : 0 < n.toNat) : NullEntry s.params.stride (builtTable a0 a1 n s) a0.toNat := by
  intro j hj
  rw [readByte_builtTable hn, if_pos (by omega)]

/-- Past entry 0 a built table has the bytes its source had before the command. -/
theorem readByte_builtTable_of_source {j : Nat} (hn : 0 < n.toNat) (h1 : s.params.stride.bytes ≤ j)
    (h2 : j < n.toNat * s.params.stride.bytes) :
    readByte (builtTable a0 a1 n s) (a0.toNat + j) = readByte s.mem (a1.toNat + j) := by
  have hlen : tableLen s.params.stride n.toNat = n.toNat * s.params.stride.bytes := rfl
  rw [readByte_builtTable hn, if_neg (by omega), if_pos (by omega), Nat.add_sub_cancel_left]

theorem entryAddr_one (k : Stride) (a : Nat) : entryAddr k a 1 = a + k.bytes := by
  rw [entryAddr, Nat.one_mul]

theorem execTbuild_failsWith (hsize : SizeFits s.params.stride n.toNat)
    (ha : admitted s.params (entryAddr s.params.stride a1.toNat 1) (tableLen s.params.stride (n.toNat - 1)) = true)
    (hset : SomeReservedSet s.params.stride s.mem a1.toNat n.toNat) : FailsWith (execTbuild a0 a1 n s) s 0x31#8 := by
  rw [execTbuild, orFail_of_passed (sizeFits_iff.2 hsize), whenAdmitted_pos ha, if_pos (someReservedSet_iff.2 hset)]
  rfl

theorem execTbuild_of_clear (hsize : SizeFits s.params.stride n.toNat)
    (hsource : admitted s.params (entryAddr s.params.stride a1.toNat 1) (tableLen s.params.stride (n.toNat - 1)) = true)
    (hclear : ¬SomeReservedSet s.params.stride s.mem a1.toNat n.toNat)
    (htable : admitted s.params a0.toNat (tableLen s.params.stride n.toNat) = true) :
    execTbuild a0 a1 n s = .next (finishOk (s.setMem (builtTable a0 a1 n s))) := by
  rw [execTbuild, orFail_of_passed (sizeFits_iff.2 hsize), whenAdmitted_pos hsource,
    if_neg (mt someReservedSet_iff.1 hclear), whenAdmitted_pos htable]

/-- Settles O16: the checks in R102's order, then the built table, which reads only the memory before the command. -/
theorem tbuildBuildsTheTableOrWritesNothing : Obligations.TbuildBuildsTheTableOrWritesNothing := by
  intro s a0 a1 n
  refine ⟨orFail_checkSize_empty, orFail_checkSize_tooLarge, fun hsize hsource => ?_⟩
  have hn := toNat_pos_of_sizeFits hsize
  rw [← entryAddr_one] at hsource
  refine ⟨execTbuild_failsWith hsize hsource, fun hclear htable => ?_⟩
  exact ⟨builtTable a0 a1 n s, execTbuild_of_clear hsize hsource hclear htable, builtTable_nullEntry hn,
    fun j => readByte_builtTable_of_source hn, builtTable_keptOutside hn⟩

/-! ### TBUILD, then TCHECK (41_descriptor_table.md R105) -/

theorem Ends.completed_of_finishedOk (h : Ends i s t) (hok : FinishedOk s t) :
    Passed i s ∧ t = finishOk (completed i s) := by
  cases h with
  | failed r => exact absurd hok (not_finishedOk_failInvalid r s)
  | faulted _ => exact absurd hok (not_finishedOk_raiseHardwareFault _ _ s)
  | done hp => exact ⟨hp, rfl⟩

/-- Reserved bytes are set alike in two sequences of entries that have the same bytes past entry 0. -/
theorem someReservedSet_of_same_bytes (hset : SomeReservedSet k m a c)
    (h : ∀ j, k.bytes ≤ j → j < c * k.bytes → readByte m (a + j) = readByte m' (a' + j)) :
    SomeReservedSet k m' a' c := by
  obtain ⟨e, he, hec, rfl, j, hj8, hj12, hne⟩ := hset
  refine ⟨e, he, hec, rfl, j, hj8, hj12, ?_⟩
  have hpast : Stride.twelve.bytes ≤ e * Stride.twelve.bytes + j := by rw [Stride.bytes]; omega
  have hbefore : e * Stride.twelve.bytes + j < c * Stride.twelve.bytes := by rw [Stride.bytes]; omega
  have hsame := h (e * Stride.twelve.bytes + j) hpast hbefore
  rwa [Nat.add_assoc, ← hsame, ← Nat.add_assoc]

theorem builtTable_validTable (hn : 0 < n.toNat) (hclear : ¬SomeReservedSet s.params.stride s.mem a1.toNat n.toNat) :
    ValidTable s.params.stride (builtTable a0 a1 n s) a0.toNat n.toNat :=
  ⟨builtTable_nullEntry hn, fun hset =>
    hclear (someReservedSet_of_same_bytes hset fun _ => readByte_builtTable_of_source hn)⟩

/-- The table a TBUILD builds, once its own checks have passed, passes the validation. -/
theorem tablePasses_of_tbuild (hp : Passed (.tbuild a0 a1 n) s) :
    TablePasses a0 n (finishOk (completed (.tbuild a0 a1 n) s)) := by
  obtain ⟨hsize, hr, ha⟩ := hp
  have hclear : ¬SomeReservedSet s.params.stride s.mem a1.toNat n.toNat :=
    mt someReservedSet_iff.2 (Bool.eq_false_iff.1 hr)
  exact ⟨hsize, ha, validTable_iff.2 (builtTable_validTable (checkSize_none.1 hsize).1 hclear)⟩

/-- The validation of a table sees the parameters and the table's bytes only. -/
theorem TablePasses.of_same_bytes (h : TablePasses a0 n t) (hparams : u.params = t.params)
    (hbytes : ∀ j < tableLen t.params.stride n.toNat, readByte u.mem (a0.toNat + j) = readByte t.mem (a0.toNat + j)) :
    TablePasses a0 n u := by
  have hn : 0 < n.toNat := (checkSize_none.1 h.size).1
  constructor <;> rw [hparams]
  · exact h.size
  · exact h.admission
  · rw [checkTable_congr hn hbytes, h.bytes]

/-- Settles O19: what TBUILD completed is a table that passes, and it passes wherever its bytes are the same. -/
theorem builtTablePassesTcheckUntilWritten : Obligations.BuiltTablePassesTcheckUntilWritten := by
  intro s t u a0 a1 n h hok hparams hbytes
  obtain ⟨hp, rfl⟩ := (exec_ends h).completed_of_finishedOk hok
  have hpasses : TablePasses a0 n u := (tablePasses_of_tbuild hp).of_same_bytes hparams hbytes
  obtain ⟨hnull, -⟩ := validTable_iff.1 hpasses.bytes
  exact ⟨withValidTable_of_passes hpasses, hnull⟩

/-! ### Agreement on the size of a table (41_descriptor_table.md R105)

The rest of each command, behind its size check, ends in neither of the two statuses of that check. -/

/-- The answer `o` is no failure of the size check. -/
def NoSizeFailure (s : State) (o : Result) : Prop := ∀ x, x = 0x41#8 ∨ x = 0x51#8 → ¬FailsWith o s x

theorem noSizeFailure_of_status (ht : t.rspStatus ≠ some 0x41#8 ∧ t.rspStatus ≠ some 0x51#8) :
    NoSizeFailure s (.next t) := by
  rintro x hx h
  obtain rfl := Host.Outcome.next.inj h
  rcases hx with rfl | rfl
  · exact ht.1 rfl
  · exact ht.2 rfl

theorem noSizeFailure_finishOk (s t : State) : NoSizeFailure s (.next (finishOk t)) :=
  noSizeFailure_of_status (by simp [statusOk])

theorem noSizeFailure_failInvalid (hr : r = .nullNotZero ∨ r = .reservedSet) :
    NoSizeFailure s (.next (failInvalid r s)) := by
  refine noSizeFailure_of_status ?_
  rcases hr with rfl | rfl <;> simp [statusInvalid, reasonCode]

theorem noSizeFailure_raiseHardwareFault (op : BitVec 8) (cpl : BitVec 2) (s : State) :
    NoSizeFailure s (.next (raiseHardwareFault op cpl s)) := by
  intro x _ h
  have hstate : raiseHardwareFault op cpl s = { s with rspStatus := some x } := Host.Outcome.next.inj h
  exact raiseHardwareFault_faultLog_ne op cpl s (by rw [hstate])

theorem noSizeFailure_whenAdmitted (hgo : NoSizeFailure s go) : NoSizeFailure s (whenAdmitted s a c go) :=
  fun x hx h => hgo x hx (whenAdmitted_next.1 h).2

theorem noSizeFailure_orFail (hc : check = none) (hgo : NoSizeFailure s go) : NoSizeFailure s (orFail check s go) := by
  rwa [orFail_of_passed hc]

theorem execTbuild_noSizeFailure (hsize : SizeFits s.params.stride n.toNat) :
    NoSizeFailure s (execTbuild a0 a1 n s) := by
  refine noSizeFailure_orFail (sizeFits_iff.2 hsize) (noSizeFailure_whenAdmitted ?_)
  split
  · exact noSizeFailure_failInvalid (.inr rfl)
  · exact noSizeFailure_whenAdmitted (noSizeFailure_finishOk s _)

theorem withValidTable_noSizeFailure {go : State} (hsize : SizeFits s.params.stride n.toNat)
    (hgo : NoSizeFailure s (.next go)) : NoSizeFailure s (withValidTable a0 n s go) := by
  refine noSizeFailure_orFail (sizeFits_iff.2 hsize) (noSizeFailure_whenAdmitted ?_)
  split
  · next hr => exact noSizeFailure_failInvalid (checkTable_some hr)
  · exact hgo

theorem execTview_noSizeFailure (hsize : SizeFits s.params.stride n.toNat) : NoSizeFailure s (execTview a0 n s) :=
  noSizeFailure_orFail (sizeFits_iff.2 hsize) (noSizeFailure_finishOk s _)

theorem execLoad_noSizeFailure (hsize : SizeFits s.params.stride n.toNat) : NoSizeFailure s (execLoad a0 n cpl s) := by
  refine withValidTable_noSizeFailure hsize ?_
  split
  · unfold unlessBaseRefused
    split
    · exact noSizeFailure_raiseHardwareFault _ _ s
    · exact noSizeFailure_finishOk s _
  · exact noSizeFailure_raiseHardwareFault _ _ s

/-- Settles O20: all four begin with the one size check, and behind it none of them reports what it reports. -/
theorem tableCommandsAgreeOnSize : Obligations.TableCommandsAgreeOnSize := by
  intro s a0 a1 n cpl x
  constructor
  · rintro (⟨hn, rfl⟩ | ⟨hn, hlen, rfl⟩)
    · have hfail {go : Result} := orFail_checkSize_empty (s := s) (go := go) hn
      exact ⟨hfail, hfail, hfail, hfail⟩
    · have hfail {go : Result} := orFail_checkSize_tooLarge (s := s) (go := go) hn hlen
      exact ⟨hfail, hfail, hfail, hfail⟩
  · intro hsize hx
    exact ⟨execTbuild_noSizeFailure hsize x hx, withValidTable_noSizeFailure hsize (noSizeFailure_finishOk s s) x hx,
      execTview_noSizeFailure hsize x hx, execLoad_noSizeFailure hsize x hx⟩

end Sys2Proof.Proofs
end

section
/-!
PROOFS. Register access (42_gdtr_access.md R120 to R129): what CAPTURE, CAPLDT, INSTALL and LOAD answer for each outcome
of their checks, what they leave when they finish OK, and from that the save and restore of GDTR. MODE and LDTR follow
from what a completed command writes.
-/

namespace Sys2Proof.Proofs

open Sys2Proof.Config Sys2Proof.Machine Sys2Proof.Safety

variable {m m' : Memory} {v : RegValue} {a : Nat} {i : Instr} {s t : State} {a0 : Addr} {n : BitVec 32}
  {op : BitVec 8} {cpl : BitVec 2}

/-! ### What a command leaves as it was: LDTR, the parameters, MODE -/

/-- What a completed command does not write, the command leaves however it ends. -/
theorem Ends.keeps {α : Type} {get : State → α} (hget : ApartFromOutcome get) (h : Ends i s t)
    (hkept : get (completed i s) = get s) : get t = get s := by
  by_contra hne
  obtain ⟨-, -, hw⟩ := h.completed_of_changed hget hne
  exact hw hkept

theorem completed_ldtr (i : Instr) (s : State) : (completed i s).ldtr = s.ldtr := by
  cases i <;> simp [completed, storedEntry, capturedReg]

theorem completed_params (i : Instr) (s : State) : (completed i s).params = s.params := by
  cases i <;> simp [completed, storedEntry, capturedReg]

theorem exec_params (h : exec i s = .next t) : t.params = s.params :=
  (exec_ends h).keeps (get := State.params) {} (completed_params i s)

/-- Settles O39: no completed command writes either, and a step does nothing else but report an outcome and take the
command from the queue. -/
theorem noStepWritesLdtr : Obligations.NoStepWritesLdtr := by
  intro s t h
  cases step_ends h with
  | waits => exact ⟨rfl, rfl⟩
  | illegal rest => exact ⟨rfl, rfl⟩
  | ran rest hends =>
    have hldtr : t.ldtr = (s.setPending rest).ldtr := hends.keeps {} (completed_ldtr _ _)
    have hparams : t.params = (s.setPending rest).params := hends.keeps {} (completed_params _ _)
    exact ⟨hldtr, hparams⟩

/-- The whole state after a completed INSTALL, for any value `v` it finds (42_gdtr_access.md R122, R126). -/
theorem finishOk_installed (v : RegValue) (s : State) :
    finishOk ((s.setGdtr v).setMode (modeOfInstall s.params v)) =
      { s with
        gdtr := v
        mode := if v = s.params.gdtrReset then .preExisting else .flatInstalled
        rspStatus := some 0x00#8 } :=
  rfl

/-- Settles O41: LOAD and INSTALL write MODE as they complete, and nothing else does. -/
theorem modeFollowsLoadAndInstall : Obligations.ModeFollowsLoadAndInstall := by
  intro i s t h
  have hends := exec_ends h
  refine ⟨?load, ?install, ?unfinished, ?other⟩
  case load =>
    rintro ⟨a0, n, cpl, rfl⟩ hok
    obtain ⟨-, rfl⟩ := hends.completed_of_finishedOk hok
    rfl
  case install =>
    rintro ⟨a0, cpl, rfl⟩ hok
    obtain ⟨-, rfl⟩ := hends.completed_of_finishedOk hok
    rw [completed, finishOk_installed]
  case unfinished =>
    exact Not.imp_symm fun hne => (hends.completed_of_changed (get := State.mode) {} hne).1
  case other =>
    intro hload hinstall
    have hnot : ¬WritesGdtr i := fun hw => (writesGdtr_iff.1 hw).elim hinstall hload
    exact hends.keeps (get := State.mode) {} (completed_gdtr_mode_of_not hnot).2

/-! ### Register images in memory (30_encoding.md R65) -/

theorem regAt_congr (h : ∀ j < 10, readByte m (a + j) = readByte m' (a + j)) : regAt m a = regAt m' a := by
  have hlimit : memRead m a 2 = memRead m' a 2 := memRead_congr fun j hj => h j (by omega)
  have hbase : memRead m (a + 2) 8 = memRead m' (a + 2) 8 :=
    memRead_congr fun j hj => by simpa only [Nat.add_assoc] using h (2 + j) (by omega)
  rw [regAt, regAt, hlimit, hbase]

theorem imageAt_eq_regAt (a0 : Addr) (s : State) : imageAt a0 s = regAt s.mem a0.toNat :=
  unpackReg_regImage s.mem a0.toNat

theorem memRead_capturedReg (v : RegValue) (a0 : Addr) (s : State) :
    memRead (capturedReg v a0 s).mem a0.toNat 10 = (packReg v).toNat :=
  memRead_memWrite_same (packReg v).isLt

theorem regAt_capturedReg (v : RegValue) (a0 : Addr) (s : State) : regAt (capturedReg v a0 s).mem a0.toNat = v :=
  regAt_of_memRead (memRead_capturedReg v a0 s)

theorem capturedReg_keptOutside (v : RegValue) (a0 : Addr) (s : State) :
    KeptOutside s.mem (capturedReg v a0 s).mem a0.toNat 10 :=
  memWrite_keptOutside _ _ _ _

/-! ### CAPTURE and CAPLDT (42_gdtr_access.md R123, R124) -/

theorem takesHardwareFault_of_eq {o : Result} (h : o = .next (raiseHardwareFault op cpl s)) :
    TakesHardwareFault o s op cpl :=
  ⟨_, rfl, rfl, h⟩

theorem captureReg_of_refused (h : captureRefused s.params cpl = true) :
    captureReg op v a0 cpl s = .next (raiseHardwareFault op cpl s) :=
  if_pos h

theorem captureReg_of_allowed (h : ¬captureRefused s.params cpl = true)
    (ha : admitted s.params a0.toNat regImageBytes = true) :
    captureReg op v a0 cpl s = .next (finishOk (capturedReg v a0 s)) :=
  (if_neg h).trans (whenAdmitted_pos ha)

/-- The whole state after a completed capture, for any memory `m` it leaves. -/
theorem finishOk_captured (m : Memory) (v : RegValue) (s : State) :
    finishOk ((s.setMem m).setReg (packReg v)) =
      { s with mem := m, rspReg := some (v.base ++ v.limit), rspStatus := some 0x00#8 } :=
  rfl

/-- Settles O24: the two commands are one body with a register and an opcode. -/
theorem capturesStoreTheRegisterImage : Obligations.CapturesStoreTheRegisterImage := by
  intro s a0 cpl i v op h
  have hexec : exec i s = captureReg op v a0 cpl s := by
    rcases h with ⟨rfl, rfl, rfl⟩ | ⟨rfl, rfl, rfl⟩
    · rfl
    · rfl
  rw [hexec, ← captureRefused_iff]
  refine ⟨fun hr => ?refused, fun hr ha => ?allowed⟩
  case refused => exact takesHardwareFault_of_eq (captureReg_of_refused hr)
  case allowed =>
    obtain ⟨hlimit, hbase⟩ := memRead_of_regAt (regAt_capturedReg v a0 s)
    exact ⟨_, (captureReg_of_allowed hr ha).trans (congrArg _ (finishOk_captured _ v s)), hlimit, hbase,
      capturedReg_keptOutside v a0 s⟩

/-! ### INSTALL (42_gdtr_access.md R122) -/

theorem execInstall_of_ring (h : cpl ≠ 0) : execInstall a0 cpl s = .next (raiseHardwareFault opInstall cpl s) :=
  if_neg (mt privOk_iff.1 h)

theorem execInstall_of_refused (hp : cpl = 0) (ha : admitted s.params a0.toNat regImageBytes = true)
    (hb : baseRefused s.params (imageAt a0 s).base = true) :
    execInstall a0 cpl s = .next (raiseHardwareFault opInstall cpl s) := by
  rw [execInstall, if_pos (privOk_iff.2 hp), whenAdmitted_pos ha]
  exact congrArg _ (unlessBaseRefused_of_refused hb)

theorem execInstall_of_passed (h : Passed (.install a0 cpl) s) :
    execInstall a0 cpl s = .next (finishOk (completed (.install a0 cpl) s)) := by
  obtain ⟨hp, ha, hb⟩ := h
  rw [execInstall, if_pos (privOk_iff.2 hp), whenAdmitted_pos ha]
  exact congrArg _ (unlessBaseRefused_of_accepted hb)

/-- Settles O23: the privilege check, then the check of the base in the image, then the image's value in GDTR. -/
theorem installWritesGdtrAtRingZeroOnly : Obligations.InstallWritesGdtrAtRingZeroOnly := by
  intro s a0 cpl
  rw [← imageAt_eq_regAt]
  refine ⟨fun hp => ?ring, fun hp ha => ⟨fun hb => ?refused, fun hb => ?accepted⟩⟩
  case ring => exact takesHardwareFault_of_eq (execInstall_of_ring hp)
  case refused => exact takesHardwareFault_of_eq (execInstall_of_refused hp ha (baseRefused_iff.2 hb))
  case accepted =>
    exact (execInstall_of_passed ⟨hp, ha, baseAccepted_iff.2 hb⟩).trans (congrArg _ (finishOk_installed _ s))

/-! ### LOAD (42_gdtr_access.md R125) -/

theorem execLoad_of_fault (h : TablePasses a0 n s) (hf : cpl ≠ 0 ∨ ¬BaseAccepted s.params a0) :
    execLoad a0 n cpl s = .next (raiseHardwareFault opLoad cpl s) := by
  rw [execLoad, withValidTable_of_passes h]
  by_cases hp : cpl = 0
  · have hb : baseRefused s.params a0 = true := baseRefused_iff.2 (hf.resolve_left (not_not_intro hp))
    rw [if_pos (privOk_iff.2 hp)]
    exact congrArg _ (unlessBaseRefused_of_refused hb)
  · rw [if_neg (mt privOk_iff.1 hp)]

theorem execLoad_of_passed (h : Passed (.load a0 n cpl) s) :
    execLoad a0 n cpl s = .next (finishOk (completed (.load a0 n cpl) s)) := by
  obtain ⟨ht, hp, hb⟩ := h
  rw [execLoad, withValidTable_of_passes ht, if_pos (privOk_iff.2 hp)]
  exact congrArg _ (unlessBaseRefused_of_accepted hb)

/-- Settles O25: TCHECK's checks in its order, and behind them the privilege check and the check of the base. -/
theorem loadValidatesThenInstallsAtRingZero : Obligations.LoadValidatesThenInstallsAtRingZero := by
  intro s a0 n cpl
  refine ⟨orFail_checkSize_empty, orFail_checkSize_tooLarge, fun hsize ha => ⟨?null, ?reserved, fun hvalid => ?valid⟩⟩
  case null => exact fun hnull => withValidTable_failsWith hsize ha (checkTable_nullNotZero hnull)
  case reserved => exact fun hnull hset => withValidTable_failsWith hsize ha (checkTable_reservedSet hnull hset)
  case valid =>
    have hpasses : TablePasses a0 n s := ⟨sizeFits_iff.2 hsize, ha, validTable_iff.2 hvalid⟩
    refine ⟨fun hf => ?fault, fun hp hb => ?installed⟩
    case fault => exact takesHardwareFault_of_eq (execLoad_of_fault hpasses hf)
    case installed =>
      exact ⟨_, tableReg_limit_toNat hsize, execLoad_of_passed ⟨hpasses, hp, baseAccepted_iff.2 hb⟩⟩

/-- Settles O29: a LOAD that has changed GDTR is one that completed, so its checks have passed; it writes no memory, so
the table passes after it too. -/
theorem loadInstallsOnlyAValidTable : Obligations.LoadInstallsOnlyAValidTable := by
  intro s t a0 n cpl h hne
  have hends := exec_ends h
  obtain ⟨hok, -, -⟩ := hends.completed_of_changed (get := State.gdtr) {} hne
  obtain ⟨⟨hpasses, hp, -⟩, rfl⟩ := hends.completed_of_finishedOk hok
  have hafter : TablePasses a0 n (finishOk (completed (.load a0 n cpl) s)) :=
    hpasses.of_same_bytes rfl fun _ _ => rfl
  exact ⟨hp, sizeFits_iff.1 hpasses.size, validTable_iff.1 hpasses.bytes, withValidTable_of_passes hafter⟩

/-! ### What the commands leave when they finish OK -/

theorem capture_admitted (h : exec (.capture a0 cpl) s = .next t) (hok : FinishedOk s t) :
    admitted s.params a0.toNat regImageBytes = true := by
  obtain ⟨⟨-, ha⟩, -⟩ := (exec_ends h).completed_of_finishedOk hok
  exact ha

theorem capture_stores_gdtr (h : exec (.capture a0 cpl) s = .next t) (hok : FinishedOk s t) :
    memRead t.mem a0.toNat 10 = (packReg s.gdtr).toNat := by
  obtain ⟨-, rfl⟩ := (exec_ends h).completed_of_finishedOk hok
  exact memRead_capturedReg s.gdtr a0 s

theorem capture_keptOutside (h : exec (.capture a0 cpl) s = .next t) : KeptOutside s.mem t.mem a0.toNat 10 :=
  (memoryIsKeptOutsideTheWriteRange _ s t h).1

theorem install_gdtr (h : exec (.install a0 cpl) s = .next t) (hok : FinishedOk s t) :
    t.gdtr = regAt s.mem a0.toNat := by
  obtain ⟨-, rfl⟩ := (exec_ends h).completed_of_finishedOk hok
  exact imageAt_eq_regAt a0 s

theorem install_mode (h : exec (.install a0 cpl) s = .next t) (hok : FinishedOk s t) :
    t.mode = modeOfInstall s.params t.gdtr := by
  obtain ⟨-, hmode, -⟩ := modeFollowsLoadAndInstall _ s t h
  exact hmode ⟨a0, cpl, rfl⟩ hok

theorem load_gdtr (h : exec (.load a0 n cpl) s = .next t) (hok : FinishedOk s t) :
    SizeFits s.params.stride n.toNat ∧ t.gdtr = tableReg s.params.stride a0 n.toNat := by
  obtain ⟨⟨hpasses, -, -⟩, rfl⟩ := (exec_ends h).completed_of_finishedOk hok
  exact ⟨sizeFits_iff.1 hpasses.size, rfl⟩

theorem install_mem (h : exec (.install a0 cpl) s = .next t) : t.mem = s.mem :=
  (exec_ends h).keeps (get := State.mem) {} (by simp [completed])

theorem load_mem (h : exec (.load a0 n cpl) s = .next t) : t.mem = s.mem :=
  (exec_ends h).keeps (get := State.mem) {} (by simp [completed])

theorem capture_mode (h : exec (.capture a0 cpl) s = .next t) : t.mode = s.mode :=
  (exec_ends h).keeps (get := State.mode) {} (by simp [completed, capturedReg])

/-! ### The lookup sees the table only (10_state.md R30, log 14) -/

theorem observe_of_sameTable (h : SameTable v m m') (sel : BitVec 16) : observe v m sel = observe v m' sel := by
  have hread (hin : 8 * (sel.extractLsb' 3 13).toNat + 7 ≤ v.limit.toNat) :
      memRead m (v.base.toNat + 8 * (sel.extractLsb' 3 13).toNat) 8 =
        memRead m' (v.base.toNat + 8 * (sel.extractLsb' 3 13).toNat) 8 :=
    memRead_congr fun j hj => h _ ⟨by omega, by omega⟩
  unfold observe
  refine if_congr Iff.rfl rfl (if_congr Iff.rfl rfl (if_ctx_congr Iff.rfl (fun hin => ?_) fun _ => rfl))
  rw [hread hin]

theorem sameTable_of_keptOutside {c : Nat} (h : KeptOutside s.mem m a c) (hno : ¬OverlapsActive s a c) :
    SameTable s.gdtr s.mem m := by
  intro x hx
  have hout : ¬(a ≤ x ∧ x < a + c) := fun hin => hno ⟨x, hx, hin⟩
  exact (h x hout).symm

/-! ### Save and restore (42_gdtr_access.md R129) -/

/-- Settles O26: the image INSTALL finds is the one CAPTURE stored, and INSTALL writes no memory, so outside the image
memory is as it was. -/
theorem captureThenInstallRestoresGdtr : Obligations.CaptureThenInstallRestoresGdtr := by
  intro s t m h hok
  have himage : regAt t.mem m.toNat = s.gdtr := regAt_of_memRead (capture_stores_gdtr h hok)
  refine ⟨fun u v hbytes hi hiok => ?restored, fun hb => ?completes, fun v hi hiok hno sel => ?lookup⟩
  case restored => rw [install_gdtr hi hiok, regAt_congr hbytes, himage]
  case completes =>
    have hpassed : Passed (.install m 0) t := by
      rw [Passed, imageAt_eq_regAt, himage, exec_params h]
      exact ⟨rfl, capture_admitted h hok, baseAccepted_iff.2 hb⟩
    exact ⟨_, execInstall_of_passed hpassed, finishedOk_completed _ _⟩
  case lookup =>
    have hsame : SameTable s.gdtr s.mem t.mem := sameTable_of_keptOutside (capture_keptOutside h) hno
    rw [install_gdtr hi hiok, himage, install_mem hi, observe_of_sameTable hsame]

/-- Settles O27: LOAD leaves the saved image, INSTALL brings its value back to GDTR, and the second CAPTURE stores it
beside the first. -/
theorem saveLoadRestoreGivesBackTheFirmwareValue : Obligations.SaveLoadRestoreGivesBackTheFirmwareValue := by
  intro s s1 s2 s3 s4 m0 m1 tbl n hfirmware hapart h1 hok1 h2 hok2 h3 hok3 h4 hok4
  have hparams : s2.params = s.params := (exec_params h2).trans (exec_params h1)
  have hsaved : memRead s3.mem m0.toNat 10 = (packReg s.gdtr).toNat := by
    rw [install_mem h3, load_mem h2, capture_stores_gdtr h1 hok1]
  have hrestored : s3.gdtr = s.gdtr := by
    rw [install_gdtr h3 hok3, ← install_mem h3, regAt_of_memRead hsaved]
  have hkept : memRead s4.mem m0.toNat 10 = memRead s3.mem m0.toNat 10 :=
    memRead_congr fun j hj => capture_keptOutside h4 _ (by omega)
  rw [hkept, hsaved, capture_stores_gdtr h4 hok4, hrestored, ← hfirmware]
  refine ⟨rfl, rfl, ?mode, ?base⟩
  case mode => rw [capture_mode h4, install_mode h3 hok3, hrestored, hparams, modeOfInstall, if_pos hfirmware]
  case base => rw [(load_gdtr h2 hok2).2, tableReg]

/-- Settles O28: LOAD has put the derived value into GDTR, and a CAPTURE at ring 0 stores and reports GDTR's image. -/
theorem captureAfterLoadReturnsTheDerivedValue : Obligations.CaptureAfterLoadReturnsTheDerivedValue := by
  intro s t a0 m n cpl h hok ha
  obtain ⟨hsize, hgdtr⟩ := load_gdtr h hok
  have hstored : memRead (capturedReg t.gdtr m t).mem m.toNat 10 = (packReg t.gdtr).toNat :=
    memRead_capturedReg t.gdtr m t
  refine ⟨finishOk (capturedReg t.gdtr m t), captureReg_of_allowed (not_captureRefused (.inr rfl)) ha,
    finishedOk_completed (.capture m 0) t, hstored.trans ?value, ?reported⟩
  case value =>
    have hbase : t.gdtr.base = a0 := by rw [hgdtr, tableReg]
    rw [packReg_toNat, hbase, hgdtr, tableReg_limit_toNat hsize]
    omega
  case reported =>
    have hreported : (finishOk (capturedReg t.gdtr m t)).rspReg = some (packReg t.gdtr) := rfl
    rw [hreported, finishOk_mem, hstored, BitVec.ofNat_toNat, BitVec.setWidth_eq]

end Sys2Proof.Proofs
end

section
/-!
PROOFS. The outcomes of a command (60_exceptions.md R140 to R143): a command is stuck or reaches one of its ends; in the
cases listed for a HardwareFault it reaches no other end; and where its accesses are admitted it is not stuck.
-/

namespace Sys2Proof.Proofs

open Sys2Proof.Config Sys2Proof.Machine Sys2Proof.Safety

variable {i : Instr} {s t : State} {a0 a1 : Addr} {n : BitVec 32} {op : BitVec 8} {cpl : BitVec 2} {v : RegValue}
  {f : FieldRecord} {a c : Nat} {check : Option Reason} {go : Result}

/-! ### Each command ends in one outcome (60_exceptions.md R140) -/

theorem exec_stuck_or_ends (i : Instr) (s : State) :
    exec i s = .fault .unadmittedAccess ∨ ∃ t, exec i s = .next t ∧ Ends i s t := by
  refine (exec_runsAlike i (SameReads.refl s)).stuck_or_next.imp And.left ?_
  rintro ⟨t, -, ht, -, -⟩
  exact ⟨t, ht, exec_ends ht⟩

/-- Settles O36: each end of a command is one of the spec's outcomes. -/
theorem everyCommandEndsInOneOutcome : Obligations.EveryCommandEndsInOneOutcome := by
  intro i s
  refine (exec_stuck_or_ends i s).imp_right ?_
  rintro ⟨t, ht, hends⟩
  cases hends with
  | failed r => exact .inl ⟨_, statusInvalid_mem r, ht⟩
  | faulted _ => exact .inr (.inl (takesHardwareFault_of_eq ht))
  | done _ => exact .inr (.inr ⟨_, ht, finishedOk_completed i s⟩)

/-! ### The cases of a HardwareFault (60_exceptions.md R143)

Where a case needs memory, an access that is not admitted leaves the command stuck. -/

theorem execInstall_of_raisesFault (h : RaisesFault (.install a0 cpl) s) :
    execInstall a0 cpl s = .fault .unadmittedAccess ∨
      execInstall a0 cpl s = .next (raiseHardwareFault opInstall cpl s) := by
  by_cases hp : cpl = 0
  · cases ha : admitted s.params a0.toNat regImageBytes with
    | false => exact .inl (execInstall_stuck hp ha)
    | true =>
      have hbase : ¬BaseAccepted s.params (imageAt a0 s).base :=
        imageAt_eq_regAt a0 s ▸ h.resolve_left (not_not_intro hp)
      exact .inr (execInstall_of_refused hp ha (baseRefused_iff.2 hbase))
  · exact .inr (execInstall_of_ring hp)

theorem execLoad_of_raisesFault (h : RaisesFault (.load a0 n cpl) s) :
    execLoad a0 n cpl s = .fault .unadmittedAccess ∨
      execLoad a0 n cpl s = .next (raiseHardwareFault opLoad cpl s) := by
  obtain ⟨hsize, hvalid, hf⟩ := h
  cases ha : admitted s.params a0.toNat (tableLen s.params.stride n.toNat) with
  | false => exact .inl (withValidTable_stuck hsize ha)
  | true => exact .inr (execLoad_of_fault ⟨sizeFits_iff.2 hsize, ha, validTable_iff.2 hvalid⟩ hf)

/-- In the listed cases a command has no other next state than the HardwareFault's. -/
theorem exec_of_raisesFault (hf : RaisesFault i s) :
    exec i s = .fault .unadmittedAccess ∨ exec i s = .next (raiseHardwareFault (opcodeOf i) (ringOf i) s) := by
  cases i with
  | install a0 cpl => exact execInstall_of_raisesFault hf
  | capture a0 cpl => exact .inr (captureReg_of_refused (captureRefused_iff.2 hf))
  | capldt a0 cpl => exact .inr (captureReg_of_refused (captureRefused_iff.2 hf))
  | load a0 n cpl => exact execLoad_of_raisesFault hf
  | _ => exact hf.elim

theorem eq_raiseHardwareFault_of_raisesFault (h : exec i s = .next t) (hf : RaisesFault i s) :
    t = raiseHardwareFault (opcodeOf i) (ringOf i) s := by
  rcases exec_of_raisesFault hf with hstuck | hfault
  · nomatch h.symm.trans hstuck
  · exact Host.Outcome.next.inj (h.symm.trans hfault)

theorem Ends.raisesFault_of_logged (h : Ends i s t) (hne : t.faultLog ≠ s.faultLog) : RaisesFault i s := by
  cases h with
  | failed r => exact absurd rfl hne
  | faulted hf => exact hf
  | done _ => exact absurd (completed_faultLog i s) hne

/-- Settles O37: only the end of a command that takes a HardwareFault logs a record, and in the listed cases a command
that is not stuck has that end. -/
theorem hardwareFaultInExactlyTheListedCases : Obligations.HardwareFaultInExactlyTheListedCases := by
  intro i s t h
  have hstate (hf : RaisesFault i s) : t = raiseHardwareFault (opcodeOf i) (ringOf i) s :=
    eq_raiseHardwareFault_of_raisesFault h hf
  refine ⟨⟨(exec_ends h).raisesFault_of_logged, fun hf => ?_⟩, hstate⟩
  rw [hstate hf]
  exact raiseHardwareFault_faultLog_ne _ _ s

/-! ### Admitted commands have a next state (20_memory.md R42)

One lemma per check in front of the rest of a command, and one per body that commands share. -/

theorem admitted_of_all {p : Params} (hall : ∀ b < 2 ^ 64, byteAdmitted p b = true) (hfit : a + c ≤ 2 ^ 64) :
    admitted p a c = true :=
  (admitted_iff p a c).2 fun k hk => hall (a + k) (by omega)

theorem orFail_exists_next (hgo : check = none → ∃ t, go = .next t) : ∃ t, orFail check s go = .next t := by
  cases check with
  | some r => exact ⟨_, orFail_some r s go⟩
  | none => exact hgo rfl

theorem whenAdmitted_exists_next (ha : admitted s.params a c = true) (hgo : ∃ t, go = .next t) :
    ∃ t, whenAdmitted s a c go = .next t := by
  rwa [whenAdmitted_pos ha]

theorem storeEntry_exists_next (ha : admitted s.params a0.toNat s.params.stride.bytes = true) :
    ∃ t, storeEntry a0 f s = .next t :=
  orFail_exists_next fun _ => whenAdmitted_exists_next ha ⟨_, rfl⟩

theorem withEntry_exists_next {done : BitVec 96 → State}
    (ha : admitted s.params a0.toNat s.params.stride.bytes = true) : ∃ t, withEntry a0 s done = .next t :=
  whenAdmitted_exists_next ha ⟨_, rfl⟩

theorem execDecode_exists_next (ha : admitted s.params a0.toNat s.params.stride.bytes = true) :
    ∃ t, execDecode a0 s = .next t :=
  withEntry_exists_next ha

theorem execChkent_exists_next (ha : admitted s.params a0.toNat s.params.stride.bytes = true) :
    ∃ t, execChkent a0 s = .next t :=
  withEntry_exists_next ha

theorem withValidTable_exists_next {u : State}
    (ha : admitted s.params a0.toNat (tableLen s.params.stride n.toNat) = true) :
    ∃ t, withValidTable a0 n s u = .next t :=
  orFail_exists_next fun _ => whenAdmitted_exists_next ha ⟨_, rfl⟩

/-- The source is read only once the count is known to be at least 1. -/
theorem execTbuild_exists_next
    (hsource : 0 < n.toNat →
      admitted s.params (entryAddr s.params.stride a1.toNat 1) (tableLen s.params.stride (n.toNat - 1)) = true)
    (htable : admitted s.params a0.toNat (tableLen s.params.stride n.toNat) = true) :
    ∃ t, execTbuild a0 a1 n s = .next t := by
  refine orFail_exists_next fun hsize => whenAdmitted_exists_next (hsource (checkSize_none.1 hsize).1) ?_
  split
  · exact ⟨_, rfl⟩
  · exact whenAdmitted_exists_next htable ⟨_, rfl⟩

theorem execInstall_exists_next (ha : admitted s.params a0.toNat regImageBytes = true) :
    ∃ t, execInstall a0 cpl s = .next t := by
  unfold execInstall
  split
  · exact whenAdmitted_exists_next ha ⟨_, rfl⟩
  · exact ⟨_, rfl⟩

theorem captureReg_exists_next (ha : admitted s.params a0.toNat regImageBytes = true) :
    ∃ t, captureReg op v a0 cpl s = .next t := by
  unfold captureReg
  split
  · exact ⟨_, rfl⟩
  · exact whenAdmitted_exists_next ha ⟨_, rfl⟩

/-- Entries 1 to n-1 of a sequence of entries end where the sequence does. -/
theorem entryAddr_one_add_tableLen (k : Stride) (a : Nat) {c : Nat} (hc : 0 < c) :
    entryAddr k a 1 + tableLen k (c - 1) = a + tableLen k c := by
  rw [entryAddr_one, tableLen_split k hc, tableLen, Nat.add_assoc]

/-- Settles O35: every range a command accesses is one of those that fit, so each access is admitted. -/
theorem everyCommandHasAStepWhereMemoryIsAdmitted : Obligations.EveryCommandHasAStepWhereMemoryIsAdmitted := by
  intro i s hall hfit
  cases i with
  | encode a0 f => exact storeEntry_exists_next (admitted_of_all hall hfit)
  | encseg a0 q => exact storeEntry_exists_next (admitted_of_all hall hfit)
  | decode a0 => exact execDecode_exists_next (admitted_of_all hall hfit)
  | chkent a0 => exact execChkent_exists_next (admitted_of_all hall hfit)
  | tbuild a0 a1 n =>
    obtain ⟨htable, hsource⟩ := hfit
    exact execTbuild_exists_next
      (fun hn => admitted_of_all hall ((entryAddr_one_add_tableLen _ _ hn).trans_le hsource))
      (admitted_of_all hall htable)
  | tcheck a0 n => exact withValidTable_exists_next (admitted_of_all hall hfit)
  | tview a0 n => exact orFail_exists_next fun _ => ⟨_, rfl⟩
  | install a0 cpl => exact execInstall_exists_next (admitted_of_all hall hfit)
  | capture a0 cpl => exact captureReg_exists_next (admitted_of_all hall hfit)
  | capldt a0 cpl => exact captureReg_exists_next (admitted_of_all hall hfit)
  | load a0 n cpl => exact withValidTable_exists_next (admitted_of_all hall hfit)

end Sys2Proof.Proofs
end

section
/-!
PROOFS. Reset and the hazards (70_reset_and_hazards.md R160 to R165): the values reset leaves, the bytes a TBUILD has
written, and what the processor's lookup makes of a loaded table at each stride.
-/

namespace Sys2Proof.Proofs

open Sys2Proof.Config Sys2Proof.Machine Sys2Proof.Safety

variable {k : Stride} {m : Memory} {a : Nat} {s t : State} {a0 a1 : Addr} {n : BitVec 32} {cpl : BitVec 2}
  {index : BitVec 13}

/-! ### Reset (70_reset_and_hazards.md R160) -/

/-- Settles O47: memory is empty, GDTR and LDTR hold the parameters' values, and no register and no record holds
anything that could be illegal. -/
theorem resetIsLegal : Obligations.ResetIsLegal := by
  intro p
  constructor
  case mem_wf => exact resetWith_mem_wf p
  case ldtr_reset => exact State.resetWith_ldtr p
  case mode_gdtr => exact fun _ => State.resetWith_gdtr p
  case gdtr_canonical => exact fun _ => .inl (State.resetWith_gdtr p)
  case status_legal => exact nofun
  case entry_legal => exact nofun
  case fields_legal => exact nofun
  case faults_legal => exact nofun

/-- Settles O48: the fields of the state after reset, and a step of an empty queue, which waits. -/
theorem resetLeavesTheStatedValues : Obligations.ResetLeavesTheStatedValues := by
  intro p
  have hwaits : step (State.resetWith p) = .next (State.resetWith p) := step_of_none_pending (State.resetWith_pending p)
  exact ⟨rfl, rfl, rfl, rfl, rfl, rfl, rfl, rfl, State.resetWith_faultLog p, fun _ => rfl, hwaits⟩

/-! ### The bytes a command has written (70_reset_and_hazards.md R162) -/

theorem isSome_get?_set {x y : Nat} {b : Byte} :
    (Memory.get? (Memory.set m x b) y).isSome ↔ y = x ∨ (Memory.get? m y).isSome := by
  rw [Memory.get?_set]
  by_cases h : y = x <;> simp [h]

theorem isSome_get?_writeBytes {bs : List Byte} {y : Nat} :
    (Memory.get? (writeBytes m a bs) y).isSome ↔ (a ≤ y ∧ y < a + bs.length) ∨ (Memory.get? m y).isSome := by
  induction bs generalizing m a with
  | nil => exact (or_iff_right (by rw [List.length_nil]; omega)).symm
  | cons b bs ih =>
    rw [writeBytes, ih, isSome_get?_set, ← or_assoc, List.length_cons]
    exact or_congr_left (by omega)

theorem isSome_get?_memWrite {c v y : Nat} :
    (Memory.get? (memWrite m a c v) y).isSome ↔ (a ≤ y ∧ y < a + c) ∨ (Memory.get? m y).isSome := by
  rw [memWrite, isSome_get?_writeBytes, leBytes_length]

theorem isSome_get?_copyEntries {src : Memory} {a' c y : Nat} :
    (Memory.get? (copyEntries k src a a' c m) y).isSome ↔
      (a + k.bytes ≤ y ∧ y < a + k.bytes + c * k.bytes) ∨ (Memory.get? m y).isSome := by
  induction c with
  | zero => exact (or_iff_right (by omega)).symm
  | succ c ih =>
    have hlast : (c + 1) * k.bytes = c * k.bytes + k.bytes := Nat.succ_mul _ _
    rw [copyEntries, isSome_get?_memWrite, ih, ← or_assoc, entryAddr]
    exact or_congr_left (by omega)

/-- TBUILD writes every byte of its table. -/
theorem isSome_get?_builtTable {y : Nat} (hn : 0 < n.toNat) (h1 : a0.toNat ≤ y)
    (h2 : y < a0.toNat + tableLen s.params.stride n.toNat) : (Memory.get? (builtTable a0 a1 n s) y).isSome := by
  have hsplit := tableLen_split s.params.stride hn
  rw [builtTable, isSome_get?_copyEntries, isSome_get?_memWrite, ← or_assoc]
  exact .inl (by omega)

theorem inTable_tableReg_iff {x : Nat} (hsize : SizeFits k n.toNat) :
    InTable (tableReg k a0 n.toNat) x ↔ a0.toNat ≤ x ∧ x < a0.toNat + tableLen k n.toNat := by
  have hlen : 0 < n.toNat * k.bytes := Nat.mul_pos (toNat_pos_of_sizeFits hsize) (stride_bytes_pos k)
  have hbase : (tableReg k a0 n.toNat).base = a0 := rfl
  rw [InTable, tableReg_limit_toNat hsize, hbase, tableLen]
  omega

/-- Settles O30: the table GDTR locates after the LOAD is the one TBUILD wrote, byte for byte. -/
theorem buildThenLoadInstallsAConstructedTable : Obligations.BuildThenLoadInstallsAConstructedTable := by
  intro s t u a0 a1 n cpl hbuild hbuilt hload hloaded x hx
  obtain ⟨-, rfl⟩ := (exec_ends hbuild).completed_of_finishedOk hbuilt
  obtain ⟨hsize, hgdtr⟩ := load_gdtr hload hloaded
  rw [hgdtr, inTable_tableReg_iff hsize] at hx
  rw [load_mem hload]
  exact isSome_get?_builtTable (toNat_pos_of_sizeFits hsize) hx.1 hx.2

/-! ### A table that nothing writes (70_reset_and_hazards.md R163) -/

/-- Settles O45: what a command keeps outside its range holds the active table, and the lookup sees the table only. -/
theorem lookupStaysWhileTheActiveTableIsUntouched : Obligations.LookupStaysWhileTheActiveTableIsUntouched := by
  intro i s t h hgdtr hno
  have hsame : SameTable s.gdtr s.mem t.mem :=
    sameTable_of_keptOutside (memoryIsKeptOutsideTheWriteRange i s t h).1 hno
  exact ⟨hsame, fun sel => by rw [hgdtr, observe_of_sameTable hsame]⟩

/-! ### Parts of an entry image -/

/-- The bytes `o` to `o + c - 1` of a wider read. -/
theorem memRead_slice {o c w : Nat} (h : o + c ≤ w) :
    memRead m a w / 256 ^ o % 256 ^ c = memRead m (a + o) c := by
  obtain ⟨d, rfl⟩ := Nat.exists_eq_add_of_le h
  rw [Nat.add_assoc, memRead_add, memRead_add, Nat.add_mul_div_left _ _ (by positivity),
    Nat.div_eq_of_lt (memRead_lt m a o), Nat.zero_add, Nat.add_mul_mod_self_left, Nat.mod_eq_of_lt (memRead_lt _ _ _)]

theorem entryImage_toNat (k : Stride) (m : Memory) (a : Nat) : (entryImage k m a).toNat = memRead m a k.bytes := by
  have hfit : 256 ^ k.bytes ≤ 2 ^ 96 := by cases k <;> decide
  rw [entryImage, BitVec.toNat_ofNat]
  exact Nat.mod_eq_of_lt ((memRead_lt m a k.bytes).trans_le hfit)

/-- The bits of an entry image that are its bytes `o` to `o + c - 1`. -/
theorem entryImage_extractLsb' {o c : Nat} (h : o + c ≤ k.bytes) :
    (entryImage k m a).extractLsb' (8 * o) (8 * c) = BitVec.ofNat (8 * c) (memRead m (a + o) c) := by
  apply BitVec.eq_of_toNat_eq
  have hlt := memRead_lt m (a + o) c
  rw [BitVec.extractLsb'_toNat, BitVec.toNat_ofNat, entryImage_toNat, Nat.shiftRight_eq_div_pow, ← pow_256_eq_two_pow,
    ← pow_256_eq_two_pow, memRead_slice h, Nat.mod_eq_of_lt hlt]

/-- Eight bytes whose low four are zero. -/
theorem ofNat_memRead_of_low_zero (h : memRead m a 4 = 0) :
    BitVec.ofNat 64 (memRead m a 8) = BitVec.ofNat 32 (memRead m (a + 4) 4) ++ 0#32 := by
  have hsplit : memRead m a 8 = memRead m a 4 + 256 ^ 4 * memRead m (a + 4) 4 := memRead_add m a 4 4
  have hlt := memRead_lt m (a + 4) 4
  apply BitVec.eq_of_toNat_eq
  rw [BitVec.toNat_append, ← Nat.shiftLeft_add_eq_or_of_lt (by decide), Nat.shiftLeft_eq, hsplit, h]
  simp only [BitVec.toNat_ofNat]
  omega

/-- In a valid table every reserved field is zero: entry 0 is null, and no other has its reserved bytes set. -/
theorem validTable_reserved_zero {c e : Nat} (hvalid : ValidTable .twelve m a c) (he : e < c) :
    memRead m (a + e * 12 + 8) 4 = 0 := by
  obtain ⟨hnull, hclear⟩ := hvalid
  rw [memRead_zero_iff]
  intro j hj
  rcases Nat.eq_zero_or_pos e with rfl | hpos
  · simpa [Nat.add_assoc] using hnull (8 + j) (Nat.add_lt_add_left hj 8)
  · by_contra hne
    refine hclear ⟨e, hpos, he, rfl, 8 + j, by omega, by omega, ?_⟩
    rwa [← Nat.add_assoc]

/-! ### The processor's lookup of a loaded table (70_reset_and_hazards.md R165, log 14) -/

/-- The lookup of a selector of the global table, by the selector's index. -/
theorem observe_global (v : RegValue) (m : Memory) (index : BitVec 13) (rpl : BitVec 2) :
    observe v m (index ++ 0#1 ++ rpl) =
      if index.toNat = 0 then .null
      else if 8 * index.toNat + 7 ≤ v.limit.toNat then
        .descriptor (BitVec.ofNat 64 (memRead m (v.base.toNat + 8 * index.toNat) 8))
      else .gpFault := by
  have hindex : (index ++ 0#1 ++ rpl).extractLsb' 3 13 = index :=
    (BitVec.extractLsb'_append_eq_of_le (by decide)).trans BitVec.extractLsb'_append_eq_left
  have htable : (index ++ 0#1 ++ rpl).extractLsb' 2 1 = 0#1 :=
    (BitVec.extractLsb'_append_eq_of_le (by decide)).trans BitVec.extractLsb'_append_eq_right
  rw [observe, hindex, htable, if_neg (by decide)]

/-- An index whose 8 bytes lie in the table gives those bytes, at either stride. -/
theorem observe_tableReg_inside (hsize : SizeFits k n.toNat) (rpl : BitVec 2) (h0 : index.toNat ≠ 0)
    (hin : 8 * index.toNat + 7 < n.toNat * k.bytes) :
    observe (tableReg k a0 n.toNat) m (index ++ 0#1 ++ rpl) =
      .descriptor (BitVec.ofNat 64 (memRead m (a0.toNat + 8 * index.toNat) 8)) := by
  rw [observe_global, if_neg h0, if_pos (by rw [tableReg_limit_toNat hsize]; omega), tableReg]

/-- An index whose 8 bytes do not all lie in the table faults. -/
theorem observe_tableReg_outside (hsize : SizeFits k n.toNat) (rpl : BitVec 2) (h0 : index.toNat ≠ 0)
    (hout : n.toNat * k.bytes ≤ 8 * index.toNat + 7) :
    observe (tableReg k a0 n.toNat) m (index ++ 0#1 ++ rpl) = .gpFault := by
  have hlen : 0 < n.toNat * k.bytes := Nat.mul_pos (toNat_pos_of_sizeFits hsize) (stride_bytes_pos k)
  rw [observe_global, if_neg h0, if_neg (by rw [tableReg_limit_toNat hsize]; omega)]

/-- Settles O31: at stride 8 the processor's step is the table's, so index i is entry i, inside and past its end. -/
theorem loadedStrideEightTableIsWhatTheProcessorSees : Obligations.LoadedStrideEightTableIsWhatTheProcessorSees := by
  intro s t a0 n cpl index rpl hstride h hok
  obtain ⟨hsize, hgdtr⟩ := load_gdtr h hok
  rw [hstride] at hsize hgdtr
  rw [hgdtr]
  refine ⟨fun h0 => ?null, fun h0 hin => ?entry, fun h0 hout => ?past⟩
  case null => rw [observe_global, if_pos (by rw [h0]; rfl)]
  case entry =>
    rw [observe_tableReg_inside hsize rpl (BitVec.toNat_ne_iff_ne.2 h0) (by rw [Stride.bytes]; omega),
      entryImage_extractLsb' (o := 0) (c := 8) le_rfl, Nat.add_zero, Nat.mul_comm]
  case past => exact observe_tableReg_outside hsize rpl (BitVec.toNat_ne_iff_ne.2 h0) (by rw [Stride.bytes]; omega)

theorem load_validTable (h : exec (.load a0 n cpl) s = .next t) (hok : FinishedOk s t) :
    ValidTable s.params.stride t.mem a0.toNat n.toNat := by
  obtain ⟨⟨hpasses, -, -⟩, -⟩ := (exec_ends h).completed_of_finishedOk hok
  rw [load_mem h]
  exact validTable_iff.1 hpasses.bytes

/-- Settles O32: index 3j starts at byte 24j, which is entry 2j; the next two start 8 and 16 bytes on, in entry 2j's
reserved field, which the validation found zero, and in the middle of entry 2j+1. -/
theorem loadedStrideTwelveTableIsMisreadByTheProcessor :
    Obligations.LoadedStrideTwelveTableIsMisreadByTheProcessor := by
  intro s t a0 n cpl index rpl j hstride h hok
  obtain ⟨hsize, hgdtr⟩ := load_gdtr h hok
  have hvalid := load_validTable h hok
  rw [hstride] at hsize hgdtr hvalid
  rw [hgdtr]
  have hinside := observe_tableReg_inside (a0 := a0) (m := t.mem) (index := index) hsize rpl
  rw [Stride.bytes] at hinside
  refine ⟨fun hj hn hindex => ?even, fun hn hindex => ?straddling, fun hn hindex => ?middle⟩
  case even =>
    have haddr : a0.toNat + 8 * index.toNat = a0.toNat + 2 * j * 12 := by omega
    rw [hinside (by omega) (by omega), entryImage_extractLsb' (o := 0) (c := 8) (by decide), Nat.add_zero, haddr]
  case straddling =>
    have haddr : a0.toNat + 8 * index.toNat = a0.toNat + 2 * j * 12 + 8 := by omega
    have hnext : a0.toNat + 2 * j * 12 + 8 + 4 = a0.toNat + (2 * j + 1) * 12 := by omega
    have hreserved := validTable_reserved_zero hvalid (e := 2 * j) (by omega)
    have hlow : (entryImage .twelve t.mem (a0.toNat + (2 * j + 1) * 12)).extractLsb' 0 32 =
        BitVec.ofNat 32 (memRead t.mem (a0.toNat + (2 * j + 1) * 12) 4) :=
      entryImage_extractLsb' (o := 0) (c := 4) (by decide)
    rw [hinside (by omega) (by omega), haddr, ofNat_memRead_of_low_zero hreserved, hnext, hlow]
  case middle =>
    have haddr : a0.toNat + 8 * index.toNat = a0.toNat + (2 * j + 1) * 12 + 4 := by omega
    rw [hinside (by omega) (by omega), entryImage_extractLsb' (o := 4) (c := 8) (by decide), haddr]

end Sys2Proof.Proofs
end
